-- ==== Sys2Proof/Word.lean ====
section
/-! DEFINITION. The byte, the block's only word (00_scope.md R10; 30_encoding.md R54). -/

namespace Sys2Proof

/-- A byte, unsigned, 0..255 (R10). -/
abbrev Byte := BitVec 8

end Sys2Proof
end

