-- ==== Sys2Proof/Config.lean ====
section
/-! DEFINITION. The configuration record, the fixed values of the block and the open parameter `RAW_ENABLE_REQUIRED`
(00_scope.md R5, R6; 92_eei_decisions.md D3 to D9, D27, D28). -/

namespace Sys2Proof

/-- `Cfg`, one record for the encoder path and the decoder path of one block (R5, D10). The ranges are `Cfg.wf`. -/
structure Cfg where
  /-- `HDR`, the header sentinel. -/
  hdr : Byte
  /-- `TL`, the tail sentinel. `HDR = TL` is allowed. -/
  tl : Byte
  /-- `CAP`, the capacity of the accumulation buffer in bytes. -/
  cap : Nat
  /-- `MAX_LEN`, the largest declared length the decoder accepts. -/
  maxLen : Nat
  /-- `OVF_KEEP`, the bytes an overflow keeps. -/
  ovfKeep : Nat
  /-- `NOHDR_KEEP`, the bytes the header-free trim keeps. -/
  nohdrKeep : Nat
  /-- `LOG_CORRUPTION`, whether `FrameCorruption` goes out on the error port. -/
  logCorruption : Bool
  deriving DecidableEq, Repr

/-- The default of every field (R5). -/
def Cfg.default : Cfg where
  hdr := 0xAA#8
  tl := 0x55#8
  cap := 1024
  maxLen := 255
  ovfKeep := 0
  nohdrKeep := 0
  logCorruption := true

/-- `ENC_MAX`, the encoder's payload limit, fixed whatever `MAX_LEN` is (R6, D28). -/
def encMax : Nat := 255

/-- The framing overhead: header, cmdType, length, checksum and tail, one byte each (R6). -/
def overhead : Nat := 5

/-- `RAW_ENABLE_REQUIRED` (70_reset_and_hazards.md R118, D27, I13), left open by the spec, so it has no body:
`none` when the device needs no raw enable command, `some k` when the caller sends it after `k` operations of the session. -/
opaque Config.rawEnableRequired : Option Nat

end Sys2Proof
end

