-- ==== Sys2Proof/Syntax.lean ====
section
/-! DEFINITION. The five operations, the descriptors that spell them, and the pseudo-operations
(30_encoding.md R53, R54, R59). -/

namespace Sys2Proof

/-- The operations, one constructor per row of the table of R53. -/
inductive Instr where
  /-- `CHECKSUM c, L, [p]` (R61). -/
  | checksum (c L : Byte) (p : List Byte)
  /-- `ENCODE c, [p]` (R92). -/
  | encode (c : Byte) (p : List Byte)
  /-- `ENCODE_RAW [r]` (R97). -/
  | encodeRaw (r : List Byte)
  /-- `FEED [chunk]` (R69). -/
  | feed (chunk : List Byte)
  /-- `DISCARD` (R81). -/
  | discard
  deriving DecidableEq, Repr

/-- One operand value of a descriptor (R54). -/
inductive Operand where
  | byte (b : Byte)
  | seq (s : List Byte)
  deriving DecidableEq, Repr

/-- The two kinds of operand (R54). -/
inductive OperandKind where
  | byte
  | seq
  deriving DecidableEq, Repr

/-- An operation descriptor: the select byte followed by operand values (R54). It is not serialised to bits. -/
structure Descriptor where
  op : Byte
  operands : List Operand
  deriving DecidableEq, Repr

/-- Why a descriptor names no operation. -/
inductive DecodeError where
  /-- The select byte is not in the table of R53 (R55). -/
  | unlistedOp (op : Byte)
  /-- The select byte is listed, and the operand values are not those R53 gives it (log 6). -/
  | operandMismatch (op : Byte)
  deriving DecidableEq, Repr

/-- The pseudo-operations (R59). -/
inductive Pseudo where
  | feedFrame (c : Byte) (p : List Byte)
  | reset
  deriving DecidableEq, Repr

/-- The two agents that issue operations (00_scope.md R9). -/
inductive Agent where
  | caller
  | readerLoop
  deriving DecidableEq, Repr

/-- The single issuer of each operation (R9; 20_memory.md R38). -/
def Instr.agent : Instr → Agent
  | .checksum _ _ _ => .caller
  | .encode _ _ => .caller
  | .encodeRaw _ => .caller
  | .feed _ => .readerLoop
  | .discard => .readerLoop

end Sys2Proof
end

