-- ==== Sys2Proof/WellFormed.lean ====
section
/-! DEFINITION. Well-formedness of a configuration (00_scope.md R5, R7), of an operation and a descriptor
(30_encoding.md R53, R54) and of a pseudo-operation (R59). -/

namespace Sys2Proof

/-- The ranges of R5; a record outside them is not an object of this hardware (R7). -/
def Cfg.wf (cfg : Cfg) : Bool :=
  decide (cfg.maxLen ≤ 255) && decide (overhead + cfg.maxLen ≤ cfg.cap) &&
    decide (cfg.ovfKeep ≤ cfg.cap) && decide (2 * cfg.nohdrKeep ≤ cfg.cap)

/-- Every operation is well formed: a byte operand is bounded by its type, and a sequence operand has any length,
the payload of `ENCODE` included (R54). -/
def Instr.wf : Instr → Bool
  | .checksum _ _ _ => true
  | .encode _ _ => true
  | .encodeRaw _ => true
  | .feed _ => true
  | .discard => true

/-- The kind of an operand value. -/
def Operand.kind : Operand → OperandKind
  | .byte _ => .byte
  | .seq _ => .seq

/-- The operand kinds R53 gives each select byte, in order; `none` for a byte that names no operation (R55). -/
def operandKinds (op : Byte) : Option (List OperandKind) :=
  if op = 0x01#8 then some [.byte, .byte, .seq]
  else if op = 0x11#8 then some [.byte, .seq]
  else if op = 0x12#8 then some [.seq]
  else if op = 0x21#8 then some [.seq]
  else if op = 0x22#8 then some []
  else none

/-- A descriptor names an operation: its select byte is listed and its operands are of the kinds R53 gives. -/
def Descriptor.wf (d : Descriptor) : Bool :=
  operandKinds d.op == some (d.operands.map Operand.kind)

/-- `FEEDFRAME c, [p]` requires `len(p) <= 255` (R59). -/
def Pseudo.wf : Pseudo → Bool
  | .feedFrame _ p => decide (p.length ≤ encMax)
  | .reset => true

end Sys2Proof
end

