-- ==== Sys2Proof/Decode.lean ====
section
/-! DEFINITION. The decoder of descriptors, the encoder after it, and the host's reading of a table word
(30_encoding.md R53, R54, R55, R60). -/

namespace Sys2Proof

/-- `op[7:4]`, the sub-block: 0 checksum_calculator, 1 frame_encoder, 2 stream_decoder (R53). -/
def opUnit (op : Byte) : Nat := (op.extractLsb 7 4).toNat

/-- `op[3:0]`, the function within the sub-block (R53). -/
def opFn (op : Byte) : Nat := (op.extractLsb 3 0).toNat

/-- The operation a descriptor names, read from its select byte alone and then its operands in the order of R53
(R54, R60). Every other descriptor is rejected by name (R55; log 6). -/
def decode (d : Descriptor) : Except DecodeError Instr :=
  if d.op = 0x01#8 then
    match d.operands with
    | [.byte c, .byte L, .seq p] => .ok (.checksum c L p)
    | _ => .error (.operandMismatch d.op)
  else if d.op = 0x11#8 then
    match d.operands with
    | [.byte c, .seq p] => .ok (.encode c p)
    | _ => .error (.operandMismatch d.op)
  else if d.op = 0x12#8 then
    match d.operands with
    | [.seq r] => .ok (.encodeRaw r)
    | _ => .error (.operandMismatch d.op)
  else if d.op = 0x21#8 then
    match d.operands with
    | [.seq chunk] => .ok (.feed chunk)
    | _ => .error (.operandMismatch d.op)
  else if d.op = 0x22#8 then
    match d.operands with
    | [] => .ok .discard
    | _ => .error (.operandMismatch d.op)
  else .error (.unlistedOp d.op)

/-- The descriptor of an operation: the encoding tables of R53 and R54 written the other way. -/
def encode : Instr → Descriptor
  | .checksum c L p => ⟨0x01#8, [.byte c, .byte L, .seq p]⟩
  | .encode c p => ⟨0x11#8, [.byte c, .seq p]⟩
  | .encodeRaw r => ⟨0x12#8, [.seq r]⟩
  | .feed chunk => ⟨0x21#8, [.seq chunk]⟩
  | .discard => ⟨0x22#8, []⟩

/-- The value an operand has when the table gives it no bits: the byte 0, the empty sequence (log 7). -/
def OperandKind.zero : OperandKind → Operand
  | .byte => .byte 0#8
  | .seq => .seq []

/-- The descriptor a table word stands for: its 8 bits are the select byte, its operands are zero (log 7). Every row of
opcode_table.json has 8 bits; a word of another width is given the select byte 0x00, which names no operation. -/
def tableDescriptor (nbits w : Nat) : Descriptor :=
  let op : Byte := if nbits = 8 then BitVec.ofNat 8 w else 0x00#8
  ⟨op, ((operandKinds op).getD []).map OperandKind.zero⟩

/-- The instruction the decoder reads from a table word (`none` where it refuses). -/
def decodeTableWord (nbits w : Nat) : Option Instr :=
  match decode (tableDescriptor nbits w) with
  | .ok i => some i
  | .error _ => none

end Sys2Proof
end

