-- ==== Sys2Proof/Machine/State.lean ====
section
/-! DEFINITION. The state of the block, the events and results of its operations, its faults (none) and refusals
(10_state.md R17, R29; 00_scope.md R13; 60_exceptions.md R99, R110). -/

namespace Sys2Proof.Machine

/-- The block's one memory: the bytes of the accumulation buffer from the front, oldest first (10_state.md R17;
20_memory.md R30). Equal buffers are equal lists; `Memory.wf` is the capacity bound. -/
abbrev Memory := List Byte

/-- Why a candidate is corrupt (60_exceptions.md R99, R100). -/
inductive Reason where
  | length
  | tail
  | checksum
  deriving DecidableEq, Repr

/-- The error conditions of the source's taxonomy, each with the information R99 records. No operation of the block
raises `transportError` or `payloadTooShort` (R102). -/
inductive ErrorInfo where
  | transportError
  | frameCorruption (reason : Reason)
  | payloadTooShort
  | bufferOverflow (n : Nat)
  | encodeTooLarge (n : Nat)
  deriving DecidableEq, Repr

/-- One event of an output trace (00_scope.md R13). -/
inductive Event where
  /-- `Frame(cmdType, payload)`, for the frame port. -/
  | frame (c : Byte) (p : List Byte)
  /-- `Err(code, info)`, for the error port. -/
  | err (e : ErrorInfo)
  /-- `Tx(bytes)`, for the transmit port. -/
  | tx (bytes : List Byte)
  deriving DecidableEq, Repr

/-- What the result port carries: the byte of `CHECKSUM`, or the error of `ENCODE` (30_encoding.md R57). -/
inductive Result where
  | byte (b : Byte)
  | error (e : ErrorInfo)
  deriving DecidableEq, Repr

/-- The output of one operation: a return value, possibly none, and a trace (00_scope.md R13). -/
structure Output where
  result : Option Result
  trace : List Event
  deriving DecidableEq, Repr

/-- The reasons the machine stops with a fault: none. Every error of the block is an event or a result after which it
accepts every operation again (60_exceptions.md R103, R106; log 15). -/
inductive Fault where
  deriving DecidableEq, Repr

/-- The reasons the machine has no step (60_exceptions.md R110). Each is safe: it errs toward unprovable. -/
inductive Refusal where
  /-- Raised by no arm of `exec`: every instruction has its meaning. -/
  | notModelled (mnemonic : String)
  /-- Raised by fetching a descriptor that names no operation (30_encoding.md R55; log 6). Safe. -/
  | illegalDescriptor (e : DecodeError)
  /-- Raised by fetching, or by making a block, when `Cfg` is outside its ranges (00_scope.md R7). Safe. -/
  | cfgOutOfRange
  deriving DecidableEq, Repr

/-- The state. `buf` is the block's only architectural state (R17). `cfg` is fixed when the block is made (log 1).
`pending` and `delivered` are the model's own fields for the operation input and the outputs (logs 3 and 4). -/
structure State where
  /-- The configuration of this block (00_scope.md R5); no operation writes it (10_state.md R27). -/
  cfg : Cfg
  /-- The accumulation buffer of the stream_decoder (R17). -/
  buf : Memory
  /-- The descriptors waiting at the operation input, oldest first (30_encoding.md R57). -/
  pending : List Descriptor
  /-- The outputs of the completed operations, oldest first (00_scope.md R13). -/
  delivered : List Output
  deriving DecidableEq, Repr

/-- A fresh block with the given configuration: an empty buffer, nothing at the input, nothing delivered
(10_state.md R29; 70_reset_and_hazards.md R116). -/
def State.init (cfg : Cfg) : State where
  cfg := cfg
  buf := []
  pending := []
  delivered := []

/-- The machine right after reset, with the default configuration (R29, R5; log 2). -/
def State.reset : State := State.init Cfg.default

end Sys2Proof.Machine
end

