-- ==== Sys2Proof/Machine/Flags.lean ====
section
/-! DEFINITION. The block has no flags (10_state.md R26): what a flag would say is an event. This file holds the codes of
the error conditions and the reporting of corruption (60_exceptions.md R99, R100). -/

namespace Sys2Proof.Machine

/-- The reason sub-codes (R99). -/
def Reason.code : Reason → Nat
  | .length => 1
  | .tail => 2
  | .checksum => 3

/-- The error codes (R99). -/
def ErrorInfo.code : ErrorInfo → Nat
  | .transportError => 1
  | .frameCorruption _ => 2
  | .payloadTooShort => 3
  | .bufferOverflow _ => 4
  | .encodeTooLarge _ => 5

/-- The information R99 records with a condition: the reason sub-code, the post-append length, the payload length. -/
def ErrorInfo.info : ErrorInfo → Option Nat
  | .transportError => none
  | .frameCorruption reason => some reason.code
  | .payloadTooShort => none
  | .bufferOverflow n => some n
  | .encodeTooLarge n => some n

/-- `if LOG_CORRUPTION then report FrameCorruption(reason)` (41_stream_decoder.md R69; R100). -/
def reportCorruption (cfg : Cfg) (reason : Reason) : List Event :=
  if cfg.logCorruption then [.err (.frameCorruption reason)] else []

end Sys2Proof.Machine
end

