-- ==== Sys2Proof/Machine/Operands.lean ====
section
/-! DEFINITION. How the operations read their operands and the fields of a candidate: lengths, the bounded reads of the
buffer, field extraction (20_memory.md R31; 30_encoding.md R45 to R49). -/

namespace Sys2Proof.Machine

/-- `L = zext_8(frame[2])`, an unsigned count of payload bytes (R47). -/
def lengthValue (L : Byte) : Nat := L.toNat

/-- `L <- len(p)` as the length byte of `ENCODE` (42_frame_encoder.md R92). -/
def lengthByte (p : List Byte) : Byte := BitVec.ofNat 8 p.length

/-- `T = 5 + L`, the total frame length (R46, R49). -/
def frameLength (L : Nat) : Nat := overhead + L

/-- `MemRead(i, n)`, defined only when `i + n <= len(buf)` (00_scope.md R12; R31): the bound is an argument, so no read
out of bounds can be written. -/
def memRead (b : Memory) (i n : Nat) (_h : i + n ≤ b.length) : List Byte := (b.drop i).take n

/-- `buf[i]`, with its bound (R31). -/
def byteAt (b : Memory) (i : Nat) (h : i < b.length) : Byte := b[i]

/-- `c <- buf[1]`, the cmdType of the candidate (R49). -/
def fieldCmdType (b : Memory) (h : 3 ≤ b.length) : Byte := byteAt b 1 (by omega)

/-- `buf[2]`, the length byte of the candidate (R49). -/
def fieldLength (b : Memory) (h : 3 ≤ b.length) : Byte := byteAt b 2 (by omega)

/-- `pl <- MemRead(3, L)`, the payload of the candidate (R49). -/
def fieldPayload (b : Memory) (L : Nat) (h : frameLength L ≤ b.length) : List Byte :=
  memRead b 3 L (by simp only [frameLength, overhead] at h; omega)

/-- `cs <- buf[3 + L]`, the received checksum (R49). -/
def fieldChecksum (b : Memory) (L : Nat) (h : frameLength L ≤ b.length) : Byte :=
  byteAt b (3 + L) (by simp only [frameLength, overhead] at h; omega)

/-- `tl <- buf[4 + L]`, the received tail (R49). -/
def fieldTail (b : Memory) (L : Nat) (h : frameLength L ≤ b.length) : Byte :=
  byteAt b (4 + L) (by simp only [frameLength, overhead] at h; omega)

end Sys2Proof.Machine
end

