-- ==== Sys2Proof/Machine/Ops.lean ====
section
/-! DEFINITION. The named operations: sequence primitives (00_scope.md R10), buffer primitives (20_memory.md R31), the
delivery of outputs and the four output ports (00_scope.md R13; 30_encoding.md R57), and the operation input. The block
takes no exception and returns from none (60_exceptions.md R106, R107). -/

namespace Sys2Proof.Machine

/-! ## Sequences (R10) -/

/-- `has(v, s)`. -/
def has (v : Byte) (s : List Byte) : Bool := s.any (fun x => x == v)

/-- `first(v, s)`, the least offset that holds `v`; used only when `has(v, s)`. -/
def first (v : Byte) (s : List Byte) : Nat := s.findIdx (fun x => x == v)

/-- `lastn(n, s)`, the last `min(n, len(s))` bytes. -/
def lastn (n : Nat) (s : List Byte) : List Byte := s.drop (s.length - n)

/-- `Σs`, the sum of the bytes as a natural number. -/
def sumBytes : List Byte → Nat
  | [] => 0
  | x :: s => x.toNat + sumBytes s

/-! ## The buffer (R31) -/

/-- The capacity bound of the buffer (10_state.md R17, R21), the well-formedness of the block's one memory. -/
def Memory.wf (cap : Nat) (b : Memory) : Bool := decide (b.length ≤ cap)

/-- `BufAppend(s)`: `buf <- buf ++ s`. -/
def bufAppend (b : Memory) (s : List Byte) : Memory := b ++ s

/-- `BufDropFront(n)`: `buf <- drop(n, buf)`. -/
def bufDropFront (n : Nat) (b : Memory) : Memory := b.drop n

/-! ## State updates -/

/-- `buf <- b`. -/
def State.setBuf (s : State) (b : Memory) : State := { s with buf := b }

/-- Deliver the whole output of one operation (00_scope.md R13; 10_state.md R29). -/
def State.deliver (s : State) (result : Option Result) (trace : List Event) : State :=
  { s with delivered := s.delivered ++ [⟨result, trace⟩] }

/-- The waiting descriptors become `ds`. -/
def State.setPending (s : State) (ds : List Descriptor) : State := { s with pending := ds }

/-- An agent issues a descriptor: it waits behind those already at the operation input (log 3). -/
def State.submit (s : State) (d : Descriptor) : State := s.setPending (s.pending ++ [d])

/-! ## The output ports (R57): views of the delivered outputs, in trace order and operation order (R13) -/

/-- Every event delivered so far. -/
def State.events (s : State) : List Event := s.delivered.flatMap Output.trace

/-- The frame of a `Frame` event. -/
def Event.frame? : Event → Option (Byte × List Byte)
  | .frame c p => some (c, p)
  | .err _ => none
  | .tx _ => none

/-- The error of an `Err` event. -/
def Event.err? : Event → Option ErrorInfo
  | .frame _ _ => none
  | .err e => some e
  | .tx _ => none

/-- The bytes of a `Tx` event. -/
def Event.tx? : Event → Option (List Byte)
  | .frame _ _ => none
  | .err _ => none
  | .tx bytes => some bytes

/-- The frame port. -/
def State.framePort (s : State) : List (Byte × List Byte) := s.events.filterMap Event.frame?

/-- The error port. -/
def State.errorPort (s : State) : List ErrorInfo := s.events.filterMap Event.err?

/-- The transmit port: each result whole, so that a caller can write it as one unbroken sequence
(70_reset_and_hazards.md R121). -/
def State.txPort (s : State) : List (List Byte) := s.events.filterMap Event.tx?

/-- The result port. -/
def State.resultPort (s : State) : List Result := s.delivered.filterMap Output.result

/-! ## Making a block, and the operation input -/

/-- Make a block with a configuration, or refuse one outside the ranges (00_scope.md R7; 70_reset_and_hazards.md R116). -/
def State.instantiate (cfg : Cfg) : Host.Outcome State Fault Refusal :=
  if cfg.wf then .next (State.init cfg) else .refused .cfgOutOfRange

/-- What the operation input offers a step. -/
inductive Fetched where
  /-- No descriptor waits. -/
  | idle
  /-- There is no step (60_exceptions.md R110). -/
  | refuse (r : Refusal)
  /-- The operation, and the state with its descriptor taken from the input. -/
  | run (i : Instr) (s : State)
  deriving DecidableEq, Repr

/-- Take the oldest descriptor from the input and decode it. A configuration outside its ranges and a descriptor that
names no operation have no step (R7, R55, R110; log 8). -/
def State.fetch (s : State) : Fetched :=
  if s.cfg.wf then
    match s.pending with
    | [] => .idle
    | d :: ds =>
      match decode d with
      | .ok i => .run i (s.setPending ds)
      | .error e => .refuse (.illegalDescriptor e)
  else .refuse .cfgOutOfRange

end Sys2Proof.Machine
end

