-- ==== Sys2Proof/Machine/Checksum.lean ====
section
/-! DEFINITION. checksum_calculator: the checksum function and the meaning of `CHECKSUM` (40_checksum.md R61, R65, R66). -/

namespace Sys2Proof.Machine

/-- `checksum(c, L, p)`: the two's complement of the mod-256 sum (R61). The encode path, the decode path and `CHECKSUM`
call this one function (R65). -/
def checksum (c L : Byte) (p : List Byte) : Byte :=
  let s : Nat := (c.toNat + L.toNat + sumBytes p) % 256
  BitVec.ofNat 8 ((256 - s) % 256)

/-- `CHECKSUM c, L, [p]`: the byte on the result port, an empty trace, no state read or written (R61). `L` is used as
given (R66). -/
def execChecksum (c L : Byte) (p : List Byte) (s : State) : Host.Outcome State Fault Refusal :=
  .next (s.deliver (some (.byte (checksum c L p))) [])

end Sys2Proof.Machine
end

