-- ==== Sys2Proof/Machine/Encoder.lean ====
section
/-! DEFINITION. frame_encoder: the frame and the meanings of `ENCODE` and `ENCODE_RAW` (42_frame_encoder.md R92 to R98;
30_encoding.md R45). -/

namespace Sys2Proof.Machine

/-- `[HDR, c, L] ++ p ++ [checksum(c, L, p), TL]` with `L = len(p)` (R92, R45). Nothing is escaped (R48). -/
def frameBytes (cfg : Cfg) (c : Byte) (p : List Byte) : List Byte :=
  [cfg.hdr, c, lengthByte p] ++ p ++ [checksum c (lengthByte p) p, cfg.tl]

/-- `ENCODE c, [p]`: the frame on the transmit port, or the error `EncodeTooLarge(len(p))` on the result port and an empty
trace (R92, R93; 30_encoding.md R57). -/
def execEncode (c : Byte) (p : List Byte) (s : State) : Host.Outcome State Fault Refusal :=
  if encMax < p.length then .next (s.deliver (some (.error (.encodeTooLarge p.length))) [])
  else .next (s.deliver none [.tx (frameBytes s.cfg c p)])

/-- `ENCODE_RAW [r]`: the bytes unchanged as one `Tx` event (R97). -/
def execEncodeRaw (r : List Byte) (s : State) : Host.Outcome State Fault Refusal :=
  .next (s.deliver none [.tx r])

/-- A text as bytes under the ASCII encoding (R98; log 14). The spec gives the text form for ASCII text only
(30_encoding.md R58); the value at another character, its code point mod 256, is used nowhere (`quotedBytes`; log 16). -/
def asciiBytes (text : List Char) : List Byte := text.map (fun ch => BitVec.ofNat 8 ch.toNat)

/-- The raw enable command, `frame_enable` and a newline (R98; log 14). -/
def frameEnable : List Byte :=
  asciiBytes ['f', 'r', 'a', 'm', 'e', '_', 'e', 'n', 'a', 'b', 'l', 'e', '\n']

end Sys2Proof.Machine
end

