-- ==== Sys2Proof/Machine/Decoder.lean ====
section
/-! DEFINITION. stream_decoder: the phase, the classification of a candidate, the resync loop and the meanings of `FEED`
and `DISCARD` (41_stream_decoder.md R69 to R81; 10_state.md R22; 30_encoding.md R50, R51). -/

namespace Sys2Proof.Machine

/-- The phases of the resync FSM (R22). -/
inductive Phase where
  | seekingHeader
  | haveHeader
  | lengthReject
  | accumulating
  | emit
  deriving DecidableEq, Repr

/-- `phase(b)`, a function of the buffer and the configuration (R22). -/
def phase (cfg : Cfg) (b : Memory) : Phase :=
  if b.head? = some cfg.hdr then
    if h : 3 ≤ b.length then
      let L := lengthValue (fieldLength b h)
      if cfg.maxLen < L then .lengthReject
      else if b.length < frameLength L then .accumulating
      else .emit
    else .haveHeader
  else .seekingHeader

/-- The outcomes of R51, in the order in which the conditions are tested. -/
inductive Verdict where
  /-- Fewer than 3 bytes: `[c-stop]`. -/
  | short
  /-- `L > MAX_LEN`: `[d-drop]`. -/
  | badLength
  /-- Fewer than `5 + L` bytes: `[e-stop]`. -/
  | incomplete
  /-- `tl != TL`: `[g-drop]`. -/
  | badTail
  /-- The checksum differs: `[h-drop]`. -/
  | badChecksum
  /-- A valid frame: `[i-emit]`. -/
  | valid (c : Byte) (p : List Byte)
  deriving DecidableEq, Repr

/-- Test the candidate at offset 0 of a buffer that starts with `HDR`; the first condition that holds decides
(R51; R74 to R79). -/
def classify (cfg : Cfg) (b : Memory) : Verdict :=
  if h3 : 3 ≤ b.length then
    let c := fieldCmdType b h3
    let L := fieldLength b h3
    if cfg.maxLen < lengthValue L then .badLength
    else if hT : frameLength (lengthValue L) ≤ b.length then
      let pl := fieldPayload b (lengthValue L) hT
      if fieldTail b (lengthValue L) hT ≠ cfg.tl then .badTail
      else if checksum c L pl ≠ fieldChecksum b (lengthValue L) hT then .badChecksum
      else .valid c pl
    else .incomplete
  else .short

/-- The end of one iteration of the loop of R69. -/
inductive Iter where
  /-- `exit loop`, with the final buffer. -/
  | exit (b : Memory)
  /-- Back to step (a) with the event of this iteration, if any, and the shorter buffer. -/
  | again (trace : List Event) (b : Memory)
  deriving DecidableEq, Repr

/-- What R51 does with a candidate: wait, drop one byte, or emit and remove `5 + L` bytes (R75 to R80). -/
def Verdict.act (cfg : Cfg) (b : Memory) : Verdict → Iter
  | .short => .exit b
  | .badLength => .again (reportCorruption cfg .length) (bufDropFront 1 b)
  | .incomplete => .exit b
  | .badTail => .again (reportCorruption cfg .tail) (bufDropFront 1 b)
  | .badChecksum => .again (reportCorruption cfg .checksum) (bufDropFront 1 b)
  | .valid c p => .again [.frame c p] (bufDropFront (frameLength p.length) b)

/-- `[a-trim]`: a header-free buffer past half the capacity keeps its last `NOHDR_KEEP` bytes (R72). -/
def trim (cfg : Cfg) (b : Memory) : Memory :=
  if cfg.cap < 2 * b.length then lastn cfg.nohdrKeep b else b

/-- One iteration of the loop of R69, from step (a). -/
def scanIter (cfg : Cfg) (b : Memory) : Iter :=
  if has cfg.hdr b then
    let b' := bufDropFront (first cfg.hdr b) b
    (classify cfg b').act cfg b'
  else .exit (trim cfg b)

/-- At most `n` iterations of the loop of R69: the final buffer and the trace. -/
def scanLoop (cfg : Cfg) : Nat → Memory → Memory × List Event
  | 0, b => (b, [])
  | n + 1, b =>
    match scanIter cfg b with
    | .exit b' => (b', [])
    | .again tr b' => ((scanLoop cfg n b').1, tr ++ (scanLoop cfg n b').2)

/-- The loop of R69. `len(buf) + 1` iterations are always enough (R83; log 10). -/
def scanAll (cfg : Cfg) (b : Memory) : Memory × List Event := scanLoop cfg (b.length + 1) b

/-- `FEED(chunk)` on a buffer: step 1, append and overflow (R70), then the loop in the same `FEED` (D25). -/
def feedBuffer (cfg : Cfg) (buf : Memory) (chunk : List Byte) : Memory × List Event :=
  let n := buf.length + chunk.length
  let b := bufAppend buf chunk
  if cfg.cap < n then
    let r := scanAll cfg (lastn cfg.ovfKeep b)
    (r.1, .err (.bufferOverflow n) :: r.2)
  else scanAll cfg b

/-- `FEED [chunk]` (R69): writes `buf`, delivers the trace, returns no value. -/
def execFeed (chunk : List Byte) (s : State) : Host.Outcome State Fault Refusal :=
  let r := feedBuffer s.cfg s.buf chunk
  .next ((s.setBuf r.1).deliver none r.2)

/-- `DISCARD` (R81): `buf <- []`, with an empty trace. -/
def execDiscard (s : State) : Host.Outcome State Fault Refusal :=
  .next ((s.setBuf []).deliver none [])

end Sys2Proof.Machine
end

