-- ==== Sys2Proof/Machine/Dispatch.lean ====
section
/-! DEFINITION. One arm per operation (30_encoding.md R53). -/

namespace Sys2Proof.Machine

def exec (i : Instr) (s : State) : Host.Outcome State Fault Refusal :=
  match i with
  | .checksum c L p => Sys2Proof.Machine.execChecksum c L p s
  | .encode c p => Sys2Proof.Machine.execEncode c p s
  | .encodeRaw r => Sys2Proof.Machine.execEncodeRaw r s
  | .feed chunk => Sys2Proof.Machine.execFeed chunk s
  | .discard => Sys2Proof.Machine.execDiscard s

end Sys2Proof.Machine
end

