-- ==== Sys2Proof/Machine/Step.lean ====
section
/-! DEFINITION. One step: the operation at the input, whole (20_memory.md R37), and the host's placing of a table word. -/

namespace Sys2Proof.Machine

/-- Run the operation the input offers. With none waiting the block holds its state (60_exceptions.md R115; log 3). -/
def step (s : State) : Host.Outcome State Fault Refusal :=
  match s.fetch with
  | .idle => .next s
  | .refuse r => .refused r
  | .run i t => Sys2Proof.Machine.exec i t

/-- Put a table word's descriptor in front of the operation input, so that the very next step runs it (logs 3 and 7). -/
def State.withFetchWord (s : State) (nbits w : Nat) : State :=
  s.setPending (tableDescriptor nbits w :: s.pending)

end Sys2Proof.Machine
end

