-- ==== Sys2Proof/Machine/Assembly.lean ====
section
/-! DEFINITION. The written form of operations and outputs, and its reading (30_encoding.md R58; log 16). Texts are lists
of characters. -/

namespace Sys2Proof.Machine

/-! ## Writing -/

/-- One hexadecimal digit, in capitals. -/
def hexDigit (n : Nat) : Char := if n < 10 then Char.ofNat (48 + n) else Char.ofNat (55 + n)

/-- A byte as a bare pair of digits (00_scope.md R10). -/
def hexByte (b : Byte) : List Char := [hexDigit (b.toNat / 16), hexDigit (b.toNat % 16)]

/-- The bytes of a listing, separated by single spaces. -/
def listingBody : List Byte → List Char
  | [] => []
  | [b] => hexByte b
  | b :: bs => hexByte b ++ ' ' :: listingBody bs

/-- A byte listing `[b0 b1 ...]`, offset 0 first. -/
def listing (s : List Byte) : List Char := '[' :: listingBody s ++ [']']

/-- The mnemonics of R53. -/
def mnemonicText : Instr → List Char
  | .checksum _ _ _ => ['C', 'H', 'E', 'C', 'K', 'S', 'U', 'M']
  | .encode _ _ => ['E', 'N', 'C', 'O', 'D', 'E']
  | .encodeRaw _ => ['E', 'N', 'C', 'O', 'D', 'E', '_', 'R', 'A', 'W']
  | .feed _ => ['F', 'E', 'E', 'D']
  | .discard => ['D', 'I', 'S', 'C', 'A', 'R', 'D']

/-- The operands as R58 writes them. -/
def operandText : Instr → List Char
  | .checksum c L p => ' ' :: hexByte c ++ [',', ' '] ++ hexByte L ++ [',', ' '] ++ listing p
  | .encode c p => ' ' :: hexByte c ++ [',', ' '] ++ listing p
  | .encodeRaw r => ' ' :: listing r
  | .feed chunk => ' ' :: listing chunk
  | .discard => []

/-- An operation as one line. -/
def instrText (i : Instr) : List Char := mnemonicText i ++ operandText i

/-- The name of a reason (60_exceptions.md R99). -/
def Reason.text : Reason → List Char
  | .length => "LENGTH".toList
  | .tail => "TAIL".toList
  | .checksum => "CHECKSUM".toList

/-- The name of an error condition (R99). -/
def ErrorInfo.name : ErrorInfo → List Char
  | .transportError => "TransportError".toList
  | .frameCorruption _ => "FrameCorruption".toList
  | .payloadTooShort => "PayloadTooShort".toList
  | .bufferOverflow _ => "BufferOverflow".toList
  | .encodeTooLarge _ => "EncodeTooLarge".toList

/-- The information of an error condition: a reason's name, or a decimal number. -/
def ErrorInfo.infoText : ErrorInfo → List Char
  | .transportError => []
  | .frameCorruption reason => reason.text
  | .payloadTooShort => []
  | .bufferOverflow n => Nat.toDigits 10 n
  | .encodeTooLarge n => Nat.toDigits 10 n

/-- An event as R58 writes it after the arrow. -/
def Event.text : Event → List Char
  | .frame c p => "Frame(".toList ++ hexByte c ++ [',', ' '] ++ listing p ++ [')']
  | .err e => "Err(".toList ++ e.name ++ [',', ' '] ++ e.infoText ++ [')']
  | .tx bytes => "Tx".toList ++ listing bytes

/-- A returned value as R58 writes it after the arrow. -/
def Result.text : Result → List Char
  | .byte b => hexByte b
  | .error e => e.name ++ ['('] ++ e.infoText ++ [')']

/-- The output of an operation: one line `-> ...` for the value and for each event. -/
def Output.text (o : Output) : List (List Char) :=
  (o.result.toList.map Result.text ++ o.trace.map Event.text).map (fun t => ['-', '>', ' '] ++ t)

/-! ## Reading -/

/-- The pieces of a line. -/
inductive Token where
  | word (w : List Char)
  | comma
  | lbrack
  | rbrack
  | quoted (t : List Char)
  deriving DecidableEq, Repr

/-- Where the reader of a line stands: in a word, in a quoted text, or after a backslash in one; what it has read of it
is kept backwards. -/
inductive LexMode where
  | word (acc : List Char)
  | quote (acc : List Char)
  | escape (acc : List Char)
  deriving DecidableEq, Repr

/-- The word read so far, if any. -/
def flushWord (acc : List Char) : List Token := if acc = [] then [] else [.word acc.reverse]

/-- Cut a line into its pieces. A semicolon starts a comment. In a quoted text `\n` is the newline, and no other
backslash form is read. -/
def lex : LexMode → List Char → Option (List Token)
  | .word acc, [] => some (flushWord acc)
  | .quote _, [] => none
  | .escape _, [] => none
  | .word acc, ch :: cs =>
    if ch = ' ' then (lex (.word []) cs).map (flushWord acc ++ ·)
    else if ch = ',' then (lex (.word []) cs).map (flushWord acc ++ .comma :: ·)
    else if ch = '[' then (lex (.word []) cs).map (flushWord acc ++ .lbrack :: ·)
    else if ch = ']' then (lex (.word []) cs).map (flushWord acc ++ .rbrack :: ·)
    else if ch = '"' then (lex (.quote []) cs).map (flushWord acc ++ ·)
    else if ch = ';' then some (flushWord acc)
    else lex (.word (ch :: acc)) cs
  | .quote acc, ch :: cs =>
    if ch = '"' then (lex (.word []) cs).map (.quoted acc.reverse :: ·)
    else if ch = '\\' then lex (.escape acc) cs
    else lex (.quote (ch :: acc)) cs
  | .escape acc, ch :: cs => if ch = 'n' then lex (.quote ('\n' :: acc)) cs else none

/-- The value of a hexadecimal digit, capital or small. -/
def hexValue (ch : Char) : Option Nat :=
  let n := ch.toNat
  if 48 ≤ n ∧ n ≤ 57 then some (n - 48)
  else if 65 ≤ n ∧ n ≤ 70 then some (n - 55)
  else if 97 ≤ n ∧ n ≤ 102 then some (n - 87)
  else none

/-- A byte of two digits. -/
def readPair (a b : Char) : Option Byte :=
  match hexValue a, hexValue b with
  | some x, some y => some (BitVec.ofNat 8 (16 * x + y))
  | _, _ => none

/-- A byte, `0x0B` or `0B`. -/
def readByte : List Char → Option Byte
  | [a, b] => readPair a b
  | ['0', 'x', a, b] => readPair a b
  | _ => none

/-- The bytes of a listing after its opening bracket, to the end of the line. -/
def readListing : List Token → Option (List Byte)
  | [.rbrack] => some []
  | .word w :: ts =>
    match readByte w, readListing ts with
    | some b, some bs => some (b :: bs)
    | _, _ => none
  | _ => none

/-- The bytes of a quoted text. R58 gives this form to ASCII text and says nothing of other characters: that a text
with one writes no operation is the model's choice (DESIGN CHOICE, log 16). -/
def quotedBytes (text : List Char) : Option (List Byte) :=
  if text.all (fun ch => decide (ch.toNat < 128)) then some (asciiBytes text) else none

/-- An operation from its pieces. -/
def readTokens : List Token → Option Instr
  | .word m :: ts =>
    if m = ['C', 'H', 'E', 'C', 'K', 'S', 'U', 'M'] then
      match ts with
      | .word c :: .comma :: .word L :: .comma :: .lbrack :: ps =>
        match readByte c, readByte L, readListing ps with
        | some c, some L, some p => some (.checksum c L p)
        | _, _, _ => none
      | _ => none
    else if m = ['E', 'N', 'C', 'O', 'D', 'E'] then
      match ts with
      | .word c :: .comma :: .lbrack :: ps =>
        match readByte c, readListing ps with
        | some c, some p => some (.encode c p)
        | _, _ => none
      | _ => none
    else if m = ['E', 'N', 'C', 'O', 'D', 'E', '_', 'R', 'A', 'W'] then
      match ts with
      | .lbrack :: ps => (readListing ps).map Instr.encodeRaw
      | [.quoted t] => (quotedBytes t).map Instr.encodeRaw
      | _ => none
    else if m = ['F', 'E', 'E', 'D'] then
      match ts with
      | .lbrack :: ps => (readListing ps).map Instr.feed
      | _ => none
    else if m = ['D', 'I', 'S', 'C', 'A', 'R', 'D'] then
      match ts with
      | [] => some .discard
      | _ => none
    else none
  | _ => none

/-- The operation a line writes, if it writes one. -/
def readLine (line : List Char) : Option Instr :=
  match lex (.word []) line with
  | some ts => readTokens ts
  | none => none

end Sys2Proof.Machine
end

