-- ==== Sys2Proof/Machine/Session.lean ====
section
/-! DEFINITION. What the two issuing agents do with the block: the reader loop's operations on what happens to its
connection, the boot order of a session, and the expansion of the pseudo-operations (70_reset_and_hazards.md R116, R118,
R122; 60_exceptions.md R102; 30_encoding.md R59). -/

namespace Sys2Proof.Machine

/-- What happens to a connection, as the reader loop sees it (R102, R116). -/
inductive LinkEvent where
  | sessionCreated
  | chunk (bytes : List Byte)
  | endOfStream
  | transportError
  | disconnect
  | cancel
  deriving DecidableEq, Repr

/-- The operations the reader loop issues, in program order (20_memory.md R38). Each end of a session is a `DISCARD`,
and so is its creation (R116, R102); after an end no byte of that session is fed (R122). `live` says that a session is
open (log 17). -/
def readerOps : Bool → List LinkEvent → List Instr
  | _, [] => []
  | _, .sessionCreated :: es => .discard :: readerOps true es
  | true, .chunk bytes :: es => .feed bytes :: readerOps true es
  | false, .chunk _ :: es => readerOps false es
  | _, .endOfStream :: es => .discard :: readerOps false es
  | _, .transportError :: es => .discard :: readerOps false es
  | _, .disconnect :: es => .discard :: readerOps false es
  | _, .cancel :: es => .discard :: readerOps false es

/-- The operations of a session with the raw enable command where `RAW_ENABLE_REQUIRED` puts it (R118 step 3; log 13). -/
def withRawEnable (required : Option Nat) (ops : List Instr) : List Instr :=
  match required with
  | none => ops
  | some k => ops.take k ++ .encodeRaw frameEnable :: ops.drop k

/-- A session of a block that has been made: the reset of R118 step 2, then the operations with the raw enable command
of step 3. -/
def sessionOps (required : Option Nat) (ops : List Instr) : List Instr :=
  .discard :: withRawEnable required ops

/-- The session as this device's firmware asks for it: with the open parameter `RAW_ENABLE_REQUIRED` itself (D27). -/
def bootOps (ops : List Instr) : List Instr := sessionOps Config.rawEnableRequired ops

/-- The operation a pseudo-operation stands for; `none` where `FEEDFRAME` does not meet `len(p) <= 255` (R59). -/
def expandPseudo (cfg : Cfg) : Pseudo → Option Instr
  | .feedFrame c p => if p.length ≤ encMax then some (.feed (frameBytes cfg c p)) else none
  | .reset => some .discard

end Sys2Proof.Machine
end

