-- ==== Sys2Proof/Safety.lean ====
section
/-! DEFINITION. The terms in which claims are made: the quiescent invariant and the residual bound (10_state.md R23, R24),
the loop of 41_stream_decoder.md R69 as a relation written label by label, frames standing in a stream in order
(20_memory.md R40), runs of operations, and conformance of a cycle-level implementation (00_scope.md R8). -/

namespace Sys2Proof.Machine

/-! ## Quiescent buffers -/

/-- (Q1): header-free, and at most half the capacity. -/
def Q1 (cfg : Cfg) (b : Memory) : Bool := !has cfg.hdr b && decide (2 * b.length ≤ cfg.cap)

/-- (Q2): a header and fewer than 3 bytes. -/
def Q2 (cfg : Cfg) (b : Memory) : Bool := b.head? == some cfg.hdr && decide (b.length < 3)

/-- (Q3): a header, an accepted declared length, and fewer than `5 + L` bytes. -/
def Q3 (cfg : Cfg) (b : Memory) : Bool :=
  b.head? == some cfg.hdr &&
    match b[2]? with
    | some L => decide (L.toNat ≤ cfg.maxLen) && decide (b.length < 5 + L.toNat)
    | none => false

/-- The buffer between operations (R23). -/
def quiescent (cfg : Cfg) (b : Memory) : Bool := Q1 cfg b || Q2 cfg b || Q3 cfg b

/-- `RMAX` (R24). -/
def residualMax (cfg : Cfg) : Nat := max (cfg.cap / 2) (cfg.maxLen + 4)

/-- The invariant of the block: its configuration is in range and its buffer is quiescent (00_scope.md R7; R23). -/
def State.inv (s : State) : Bool := s.cfg.wf && quiescent s.cfg s.buf

/-! ## Valid frames -/

/-- The six conditions of 30_encoding.md R50 for a candidate at buffer offset 0, as the shape they give the buffer: a
header, `cmdType`, a length byte within `MAX_LEN`, that many payload bytes, their checksum, the tail, and what follows. -/
def StartsWithFrame (cfg : Cfg) (b : Memory) (c : Byte) (p : List Byte) (rest : Memory) : Prop :=
  ∃ L : Byte, L.toNat = p.length ∧ L.toNat ≤ cfg.maxLen ∧
    b = cfg.hdr :: c :: L :: p ++ checksum c L p :: cfg.tl :: rest

/-! ## The loop of R69 as a relation -/

/-- `LoopRun cfg b tr b'`: from buffer `b` at step (a), the loop of R69 ends with buffer `b'` and trace `tr`. One rule
per label. -/
inductive LoopRun (cfg : Cfg) : Memory → List Event → Memory → Prop where
  /-- `[a-trim]`, `[a-stop]`. -/
  | aTrim {b : Memory} : cfg.hdr ∉ b → cfg.cap < 2 * b.length →
      LoopRun cfg b [] (b.drop (b.length - cfg.nohdrKeep))
  /-- `[a-stop]`. -/
  | aStop {b : Memory} : cfg.hdr ∉ b → 2 * b.length ≤ cfg.cap → LoopRun cfg b [] b
  /-- `[b-discard]` of a header-free, non-empty run before the first header. -/
  | bDiscard {g b b' : Memory} {tr : List Event} : cfg.hdr ∉ g → g ≠ [] →
      LoopRun cfg (cfg.hdr :: b) tr b' → LoopRun cfg (g ++ cfg.hdr :: b) tr b'
  /-- `[c-stop]`. -/
  | cStop {b : Memory} : b.length < 2 → LoopRun cfg (cfg.hdr :: b) [] (cfg.hdr :: b)
  /-- `[d-drop]`. -/
  | dDrop {c L : Byte} {b b' : Memory} {tr : List Event} : cfg.maxLen < L.toNat →
      LoopRun cfg (c :: L :: b) tr b' →
      LoopRun cfg (cfg.hdr :: c :: L :: b) (reportCorruption cfg .length ++ tr) b'
  /-- `[e-stop]`. -/
  | eStop {c L : Byte} {b : Memory} : L.toNat ≤ cfg.maxLen → b.length < L.toNat + 2 →
      LoopRun cfg (cfg.hdr :: c :: L :: b) [] (cfg.hdr :: c :: L :: b)
  /-- `[g-drop]`. -/
  | gDrop {c L cs tl : Byte} {pl b b' : Memory} {tr : List Event} : L.toNat ≤ cfg.maxLen →
      pl.length = L.toNat → tl ≠ cfg.tl →
      LoopRun cfg (c :: L :: pl ++ cs :: tl :: b) tr b' →
      LoopRun cfg (cfg.hdr :: c :: L :: pl ++ cs :: tl :: b) (reportCorruption cfg .tail ++ tr) b'
  /-- `[h-drop]`. -/
  | hDrop {c L cs : Byte} {pl b b' : Memory} {tr : List Event} : L.toNat ≤ cfg.maxLen →
      pl.length = L.toNat → checksum c L pl ≠ cs →
      LoopRun cfg (c :: L :: pl ++ cs :: cfg.tl :: b) tr b' →
      LoopRun cfg (cfg.hdr :: c :: L :: pl ++ cs :: cfg.tl :: b) (reportCorruption cfg .checksum ++ tr) b'
  /-- `[i-emit]`. -/
  | iEmit {c L : Byte} {pl b b' : Memory} {tr : List Event} : L.toNat ≤ cfg.maxLen →
      pl.length = L.toNat → LoopRun cfg b tr b' →
      LoopRun cfg (cfg.hdr :: c :: L :: pl ++ checksum c L pl :: cfg.tl :: b) (.frame c pl :: tr) b'

/-! ## Traces, streams and runs -/

/-- The event is a `FrameCorruption` on the error port. -/
def Event.isCorruption : Event → Bool
  | .frame _ _ => false
  | .err (.frameCorruption _) => true
  | .err .transportError => false
  | .err .payloadTooShort => false
  | .err (.bufferOverflow _) => false
  | .err (.encodeTooLarge _) => false
  | .tx _ => false

/-- No `BufferOverflow` event stands in the trace. -/
def NoOverflow (tr : List Event) : Prop := ∀ n, Event.err (.bufferOverflow n) ∉ tr

/-- Runs of bytes stand in a stream one after the other, none overlapping, and what is left over stands behind them. -/
def InOrder : List Byte → List (List Byte) → List Byte → Prop
  | stream, [], rest => ∃ gap, stream = gap ++ rest
  | stream, run :: runs, rest => ∃ gap after, stream = gap ++ run ++ after ∧ InOrder after runs rest

/-- Run operations one after the other by `exec`. -/
def execAll : List Instr → State → Host.Outcome State Fault Refusal
  | [], s => .next s
  | i :: is, s =>
    match exec i s with
    | .next t => execAll is t
    | .fault f => .fault f
    | .refused r => .refused r

/-! ## `PORT_PROTOCOL` -/

/-- The open parameter `PORT_PROTOCOL` (92_eei_decisions.md D1; log 12): how a cycle-level implementation with states `σ`
carries an operation from its beginning to its end, and the transaction-level state it stands for at an operation
boundary. -/
structure PortProtocol (σ : Type) where
  perform : Instr → σ → σ
  view : σ → State

/-- A cycle-level implementation conforms when its effect at operation boundaries is the transaction-level one (R8). -/
def PortProtocol.Conforms {σ : Type} (P : PortProtocol σ) : Prop :=
  ∀ (i : Instr) (c : σ), exec i (P.view c) = .next (P.view (P.perform i c))

end Sys2Proof.Machine
end

