-- ==== Sys2Proof/Certificates/Slice0/Obligations.lean ====
section
/-! DEFINITION. The statements about the block, rule by rule of spec/. A statement without a hypothesis on the configuration
holds for every `Cfg`; most others need only that it is in the ranges of 00_scope.md R5. -/

open Sys2Proof Sys2Proof.Machine

/-! ## The operation interface -/

/-- 30_encoding.md R53, 95_test_vectors.md P1, P2, P5, P6: one descriptor of each row, its select code written out bit
by bit. -/
def Obligations.SelectCodesDecode : Prop :=
  decode ⟨0b00000001#8, [.byte 0x02#8, .byte 0x01#8, .seq [0x01#8]]⟩ = .ok (.checksum 0x02#8 0x01#8 [0x01#8]) ∧
  decode ⟨0b00010001#8, [.byte 0x02#8, .seq [0x01#8]]⟩ = .ok (.encode 0x02#8 [0x01#8]) ∧
  decode ⟨0b00010010#8, [.seq [0x41#8, 0x0A#8]]⟩ = .ok (.encodeRaw [0x41#8, 0x0A#8]) ∧
  decode ⟨0b00100001#8, [.seq [0xAA#8, 0x0B#8, 0x00#8]]⟩ = .ok (.feed [0xAA#8, 0x0B#8, 0x00#8]) ∧
  decode ⟨0b00100010#8, []⟩ = .ok .discard

/-- 30_encoding.md R53, R54, R60: a descriptor names an operation exactly when it is that operation's descriptor, so it
names at most one. That a listed `op` with operand values other than R53's names none is the model's choice (log 6). -/
def Obligations.DescriptorNamesItsOperation : Prop :=
  ∀ (d : Descriptor) (i : Instr), decode d = .ok i ↔ d = encode i

/-- 30_encoding.md R55: an unlisted `op` names no operation and has no step, whatever its operands; function code 0 of
every unit is unlisted. (`pending`, the operation input, is the model's own field, log 3.) -/
def Obligations.UnlistedOpHasNoStep : Prop :=
  ∀ (op : Byte) (operands : List Operand) (s : State) (ds : List Descriptor),
    (opFn op = 0 → op ∉ [0x01#8, 0x11#8, 0x12#8, 0x21#8, 0x22#8]) ∧
    (op ∉ [0x01#8, 0x11#8, 0x12#8, 0x21#8, 0x22#8] →
      decode ⟨op, operands⟩ = .error (.unlistedOp op) ∧
      (s.cfg.wf = true → s.pending = ⟨op, operands⟩ :: ds →
        step s = .refused (.illegalDescriptor (.unlistedOp op))))

/-- A step is the decoded operation on the state with its descriptor taken from the input (30_encoding.md R54;
20_memory.md R37; log 3 for the input). -/
def Obligations.StepRunsDecodedOperation : Prop :=
  ∀ (s : State) (d : Descriptor) (ds : List Descriptor) (i : Instr),
    s.cfg.wf = true → s.pending = d :: ds → decode d = .ok i → step s = exec i { s with pending := ds }

/-- With no descriptor at the input the block holds its state (60_exceptions.md R115; the idle step is the model's
choice, log 3). -/
def Obligations.IdleStepHoldsState : Prop :=
  ∀ s : State, s.cfg.wf = true → s.pending = [] → step s = .next s

/-- 00_scope.md R7: no block is made with a configuration outside the ranges of R5, and none has a step; within them one
is made. -/
def Obligations.CfgOutOfRangeIsRefused : Prop :=
  ∀ cfg : Cfg,
    (cfg.maxLen ≤ 255 ∧ 5 + cfg.maxLen ≤ cfg.cap ∧ cfg.ovfKeep ≤ cfg.cap ∧ 2 * cfg.nohdrKeep ≤ cfg.cap →
      State.instantiate cfg = .next ⟨cfg, [], [], []⟩) ∧
    (¬ (cfg.maxLen ≤ 255 ∧ 5 + cfg.maxLen ≤ cfg.cap ∧ cfg.ovfKeep ≤ cfg.cap ∧ 2 * cfg.nohdrKeep ≤ cfg.cap) →
      State.instantiate cfg = .refused .cfgOutOfRange ∧
      ∀ s : State, s.cfg = cfg → step s = .refused .cfgOutOfRange)

/-- The descriptors at the input run in the order in which they were issued, one step each (00_scope.md R8, R13;
20_memory.md R38; log 3). -/
def Obligations.InputRunsInIssueOrder : Prop :=
  ∀ (s : State) (ops : List Instr) (rest : List Descriptor), s.cfg.wf = true →
    Host.Core.run Sys2Proof.core ops.length { s with pending := ops.map encode ++ rest } =
      execAll ops { s with pending := rest }

/-- 60_exceptions.md R103: in every state every operation completes. -/
def Obligations.EveryOperationCompletes : Prop :=
  ∀ (i : Instr) (s : State), ∃ t, exec i s = .next t

/-- 10_state.md R27, 00_scope.md R13: a step never changes the configuration or an output already delivered; it is idle,
or it takes one descriptor and delivers one output. -/
def Obligations.StepDeliversOneOutput : Prop :=
  ∀ s t : State, step s = .next t →
    t.cfg = s.cfg ∧
    (s.pending = [] ∧ t = s ∨
      ∃ d o, s.pending = d :: t.pending ∧ t.delivered = s.delivered ++ [o])

/-! ## checksum_calculator -/

/-- 40_checksum.md R61: `CHECKSUM` is the descriptor 0x01 with `c`, `L`, `p`, returns `(0 - (c + L + sum of p)) mod 256`
for every `c`, `L`, `p` (also when `L` is not `len(p)` and when `p` is longer than 255), and changes nothing else. -/
def Obligations.ChecksumReturnsNegatedSum : Prop :=
  ∀ (c L : Byte) (p : List Byte) (s : State),
    encode (.checksum c L p) = ⟨0x01#8, [.byte c, .byte L, .seq p]⟩ ∧
    ∃ k : Byte, (k.toNat : Int) = (0 - (((c :: L :: p).map BitVec.toNat).sum : Int)) % 256 ∧
      exec (.checksum c L p) s = .next { s with delivered := s.delivered ++ [⟨some (.byte k), []⟩] }

/-- 40_checksum.md R62: wrapping at every step and wrapping once give the same sum, the three ways of negating give the
same byte, and the order of the bytes does not matter. -/
def Obligations.ChecksumFormsAgree : Prop :=
  ∀ (c L : Byte) (p : List Byte),
    let x := (c :: L :: p).map BitVec.toNat
    let s := x.foldl (fun a y => (a + y) % 256) 0
    s = x.sum % 256 ∧
    ((checksum c L p).toNat : Int) = (0 - (s : Int)) % 256 ∧
    (checksum c L p).toNat = ((255 - s) + 1) % 256 ∧
    (checksum c L p).toNat = (256 - s) % 256 ∧
    ∀ (c' L' : Byte) (p' : List Byte), (c :: L :: p).Perm (c' :: L' :: p') → checksum c' L' p' = checksum c L p

/-- 40_checksum.md R63: the summed bytes and the checksum sum to 0 mod 256; so do the bytes at offsets 1 to `3 + L` of a
valid frame. -/
def Obligations.CheckedBytesSumToZero : Prop :=
  (∀ (c L : Byte) (p : List Byte),
    (((c :: L :: p).map BitVec.toNat).sum + (checksum c L p).toNat) % 256 = 0) ∧
  ∀ (cfg : Cfg) (b rest : Memory) (c : Byte) (p : List Byte), StartsWithFrame cfg b c p rest →
    (((b.drop 1).take (3 + p.length)).map BitVec.toNat).sum % 256 = 0

/-- 40_checksum.md R67: a received checksum is accepted exactly when the summed bytes and it sum to 0 mod 256, so
changes whose deltas cancel pass; one changed byte among `c`, `L`, the payload and the checksum never does. -/
def Obligations.OneChangedByteIsDetected : Prop :=
  (∀ (c L cs : Byte) (p : List Byte),
    checksum c L p = cs ↔ ((c :: L :: p ++ [cs]).map BitVec.toNat).sum % 256 = 0) ∧
  ∀ (c L x : Byte) (p : List Byte) (i : Nat), i < p.length + 3 →
    (c :: L :: p ++ [checksum c L p])[i]? ≠ some x →
    (((c :: L :: p ++ [checksum c L p]).set i x).map BitVec.toNat).sum % 256 ≠ 0

/-- 40_checksum.md R68: every byte is a checksum, and with `p = []`, `L = 0` it is `(256 - c) mod 256`. -/
def Obligations.EveryByteIsAChecksum : Prop :=
  (∀ b : Byte, ∃ (c L : Byte) (p : List Byte), checksum c L p = b) ∧
  (∀ c : Byte, (checksum c 0#8 []).toNat = (256 - c.toNat) % 256) ∧
  ∀ b : Byte, ∃ c : Byte, checksum c 0#8 [] = b

/-! ## frame_encoder -/

/-- 42_frame_encoder.md R92: `ENCODE` is the descriptor 0x11 with `c`, `p`; up to 255 payload bytes give the frame of `5
+ len(p)` bytes as the one event, more give the error result and no event; nothing else changes. -/
def Obligations.EncodeReturnsFrameOrError : Prop :=
  ∀ (c : Byte) (p : List Byte) (s : State),
    encode (.encode c p) = ⟨0x11#8, [.byte c, .seq p]⟩ ∧
    (p.length ≤ 255 → ∃ L : Byte, L.toNat = p.length ∧
      exec (.encode c p) s = .next { s with delivered := s.delivered ++
        [⟨none, [.tx ([s.cfg.hdr, c, L] ++ p ++ [checksum c L p, s.cfg.tl])]⟩] } ∧
      ([s.cfg.hdr, c, L] ++ p ++ [checksum c L p, s.cfg.tl]).length = 5 + p.length) ∧
    (255 < p.length → exec (.encode c p) s = .next { s with delivered := s.delivered ++
        [⟨some (.error (.encodeTooLarge p.length)), []⟩] })

/-- 42_frame_encoder.md R93: a payload longer than 255 bytes, whatever `MAX_LEN` is, puts nothing on the transmit port
and the error on the result port. -/
def Obligations.TooLargePayloadReachesNoTransport : Prop :=
  ∀ (c : Byte) (p : List Byte) (s : State), 255 < p.length →
    ∃ t, exec (.encode c p) s = .next t ∧ t.events = s.events ∧ t.txPort = s.txPort ∧
      t.resultPort = s.resultPort ++ [.error (.encodeTooLarge p.length)]

/-- 42_frame_encoder.md R97: `ENCODE_RAW` is the descriptor 0x12 with its bytes, and returns its bytes unchanged, at
every length. -/
def Obligations.EncodeRawReturnsItsBytes : Prop :=
  ∀ (r : List Byte) (s : State),
    encode (.encodeRaw r) = ⟨0x12#8, [.seq r]⟩ ∧
    exec (.encodeRaw r) s = .next { s with delivered := s.delivered ++ [⟨none, [.tx r]⟩] }

/-- 30_encoding.md R45: the layout of the encoder's frame, offset by offset. -/
def Obligations.FrameLayout : Prop :=
  ∀ (cfg : Cfg) (c : Byte) (p : List Byte), p.length ≤ 255 →
    let F := frameBytes cfg c p
    ∃ L : Byte, L.toNat = p.length ∧ F.length = 5 + p.length ∧ F[0]? = some cfg.hdr ∧ F[1]? = some c ∧
      F[2]? = some L ∧ (F.drop 3).take p.length = p ∧ F[3 + p.length]? = some (checksum c L p) ∧
      F[4 + p.length]? = some cfg.tl

/-- 42_frame_encoder.md R96: a payload longer than `MAX_LEN` is encoded, and the decoder of the same configuration
rejects the frame at step (d). -/
def Obligations.FrameBeyondMaxLenIsRejected : Prop :=
  ∀ (c : Byte) (p : List Byte) (s : State), s.cfg.maxLen < p.length → p.length ≤ 255 →
    s.cfg.hdr ∉ s.buf → s.buf.length + (5 + p.length) ≤ s.cfg.cap →
    ∃ (F F' tr : _) (t : State), exec (.encode c p) s = .next { s with delivered := s.delivered ++ [⟨none, [.tx F]⟩] } ∧
      exec (.feed F) s = .next t ∧ F = s.cfg.hdr :: F' ∧
      t.events = s.events ++ reportCorruption s.cfg .length ++ tr ∧ LoopRun s.cfg F' tr t.buf

/-! ## stream_decoder: one `FEED` -/

/-- 41_stream_decoder.md R69, R70: `FEED` is the descriptor 0x21 with its chunk; it appends, cuts on overflow and
reports it first, and runs the loop, label by label, on what is left; nothing but `buf` and the output changes. -/
def Obligations.FeedRunsTheLoop : Prop :=
  ∀ (chunk : List Byte) (s : State),
    encode (.feed chunk) = ⟨0x21#8, [.seq chunk]⟩ ∧
    ∃ (b' : Memory) (tr : List Event),
      exec (.feed chunk) s = .next { s with buf := b', delivered := s.delivered ++ [⟨none, tr⟩] } ∧
      (s.buf.length + chunk.length ≤ s.cfg.cap → LoopRun s.cfg (s.buf ++ chunk) tr b') ∧
      (s.cfg.cap < s.buf.length + chunk.length →
        ∃ tr', tr = .err (.bufferOverflow (s.buf.length + chunk.length)) :: tr' ∧
          LoopRun s.cfg ((s.buf ++ chunk).drop (s.buf.length + chunk.length - s.cfg.ovfKeep)) tr' b')

/-- 20_memory.md R36: the loop of R69 has one outcome from every buffer. -/
def Obligations.LoopHasOneOutcome : Prop :=
  ∀ (cfg : Cfg) (b b₁ b₂ : Memory) (tr₁ tr₂ : List Event),
    LoopRun cfg b tr₁ b₁ → LoopRun cfg b tr₂ b₂ → tr₁ = tr₂ ∧ b₁ = b₂

/-- 41_stream_decoder.md R83: an iteration exits or shortens the buffer, by one byte with a corruption (reported or not)
or by the `5 + L` bytes of the frame it emits, and more than `len(buf) + 1` iterations change nothing. -/
def Obligations.LoopTerminates : Prop :=
  ∀ (cfg : Cfg) (b : Memory),
    (∀ tr b', scanIter cfg b = .again tr b' →
      b'.length < b.length ∧
      ((∃ reason, tr = reportCorruption cfg reason) ∨ ∃ c p, tr = [.frame c p] ∧ b'.length + 5 + p.length ≤ b.length)) ∧
    ∀ n, b.length + 1 ≤ n → scanLoop cfg n b = scanAll cfg b

/-- 41_stream_decoder.md R81: `DISCARD` is the descriptor 0x22 without operands; it empties `buf` and delivers an empty
trace. The reader loop issues it on disconnect, on cancellation and at the start of a session (R81,
70_reset_and_hazards.md R116); that it issues exactly one for each such event, also for an end with no session open, is
the model's reading (DEDUCED, log 17). -/
def Obligations.DiscardEmptiesBuffer : Prop :=
  (∀ s : State, encode .discard = ⟨0x22#8, []⟩ ∧
    exec .discard s = .next { s with buf := [], delivered := s.delivered ++ [⟨none, []⟩] }) ∧
  ∀ (live : Bool) (e : LinkEvent) (es : List LinkEvent), e ∈ [LinkEvent.disconnect, .cancel, .sessionCreated] →
    ∃ live', readerOps live (e :: es) = .discard :: readerOps live' es

/-- 20_memory.md R31: the buffer after a `FEED` is a suffix of the old buffer with the chunk appended; no byte in the
middle is written. -/
def Obligations.FeedKeepsASuffix : Prop :=
  ∀ (chunk : List Byte) (s t : State), exec (.feed chunk) s = .next t → t.buf <:+ s.buf ++ chunk

/-- 10_state.md R22: the phase as the table of R22 gives it. -/
def Obligations.PhaseFollowsTable : Prop :=
  ∀ (cfg : Cfg) (b : Memory),
    (phase cfg b = .seekingHeader ↔ b.length = 0 ∨ b[0]? ≠ some cfg.hdr) ∧
    (phase cfg b = .haveHeader ↔ b[0]? = some cfg.hdr ∧ b.length < 3) ∧
    (phase cfg b = .lengthReject ↔ b[0]? = some cfg.hdr ∧ 3 ≤ b.length ∧ ∃ L, b[2]? = some L ∧ cfg.maxLen < L.toNat) ∧
    (phase cfg b = .accumulating ↔ b[0]? = some cfg.hdr ∧ 3 ≤ b.length ∧
      ∃ L, b[2]? = some L ∧ L.toNat ≤ cfg.maxLen ∧ b.length < 5 + L.toNat) ∧
    (phase cfg b = .emit ↔ b[0]? = some cfg.hdr ∧ 3 ≤ b.length ∧
      ∃ L, b[2]? = some L ∧ L.toNat ≤ cfg.maxLen ∧ 5 + L.toNat ≤ b.length)

/-- 41_stream_decoder.md R82: the transition table of the resync FSM, phase by phase, for the loop from step (a). -/
def Obligations.TransitionTable : Prop :=
  ∀ (cfg : Cfg) (b : Memory),
    (phase cfg b = .seekingHeader → cfg.hdr ∉ b →
      scanAll cfg b = (if cfg.cap < 2 * b.length then b.drop (b.length - cfg.nohdrKeep) else b, [])) ∧
    (phase cfg b = .seekingHeader → cfg.hdr ∈ b →
      ∃ g b', b = g ++ cfg.hdr :: b' ∧ cfg.hdr ∉ g ∧ phase cfg (cfg.hdr :: b') ≠ .seekingHeader ∧
        scanAll cfg b = scanAll cfg (cfg.hdr :: b')) ∧
    (phase cfg b = .haveHeader → scanAll cfg b = (b, [])) ∧
    (phase cfg b = .lengthReject → scanAll cfg b =
      ((scanAll cfg (b.drop 1)).1, reportCorruption cfg .length ++ (scanAll cfg (b.drop 1)).2)) ∧
    (phase cfg b = .accumulating → scanAll cfg b = (b, [])) ∧
    (phase cfg b = .emit → ∃ (c L cs tl : Byte) (pl rest : List Byte),
      b = cfg.hdr :: c :: L :: pl ++ cs :: tl :: rest ∧ pl.length = L.toNat ∧
      (tl ≠ cfg.tl → scanAll cfg b =
        ((scanAll cfg (b.drop 1)).1, reportCorruption cfg .tail ++ (scanAll cfg (b.drop 1)).2)) ∧
      (tl = cfg.tl → checksum c L pl ≠ cs → scanAll cfg b =
        ((scanAll cfg (b.drop 1)).1, reportCorruption cfg .checksum ++ (scanAll cfg (b.drop 1)).2)) ∧
      (tl = cfg.tl → checksum c L pl = cs → scanAll cfg b =
        ((scanAll cfg rest).1, .frame c pl :: (scanAll cfg rest).2)))

/-- 30_encoding.md R50: with a header at offset 0, an iteration emits `Frame(c, p)` exactly when the six conditions hold
of the bytes at the offsets of R49, and then removes `5 + L` bytes. -/
def Obligations.OnlyValidFramesAreEmitted : Prop :=
  ∀ (cfg : Cfg) (b b' : Memory) (c : Byte) (p : List Byte), b[0]? = some cfg.hdr →
    (scanIter cfg b = .again [.frame c p] b' ↔
      ∃ L : Byte, 3 ≤ b.length ∧ b[1]? = some c ∧ b[2]? = some L ∧ L.toNat ≤ cfg.maxLen ∧ 5 + L.toNat ≤ b.length ∧
        (b.drop 3).take L.toNat = p ∧ b[4 + L.toNat]? = some cfg.tl ∧ b[3 + L.toNat]? = some (checksum c L p) ∧
        b' = b.drop (5 + L.toNat))

/-- 60_exceptions.md R101: `BufferOverflow` is reported exactly when the post-append length exceeds `CAP`, once, first,
with that length, whatever `LOG_CORRUPTION` is. -/
def Obligations.OverflowIsReportedOnceAndFirst : Prop :=
  ∀ (chunk : List Byte) (s : State), ∃ (t : State) (tr : List Event),
    exec (.feed chunk) s = .next t ∧ t.events = s.events ++ tr ∧
    (s.buf.length + chunk.length ≤ s.cfg.cap → NoOverflow tr) ∧
    (s.cfg.cap < s.buf.length + chunk.length →
      ∃ tr', tr = .err (.bufferOverflow (s.buf.length + chunk.length)) :: tr' ∧ NoOverflow tr')

/-- 70_reset_and_hazards.md R117: an overflow keeps at most the last `OVF_KEEP` bytes, and with `OVF_KEEP = 0` it leaves
`buf = []` and reports nothing else. -/
def Obligations.OverflowKeepsOvfKeep : Prop :=
  ∀ (chunk : List Byte) (s : State), s.cfg.cap < s.buf.length + chunk.length →
    ∃ t, exec (.feed chunk) s = .next t ∧
      t.buf <:+ (s.buf ++ chunk).drop (s.buf.length + chunk.length - s.cfg.ovfKeep) ∧
      (s.cfg.ovfKeep = 0 → t.buf = [] ∧
        t.events = s.events ++ [.err (.bufferOverflow (s.buf.length + chunk.length))])

/-- 60_exceptions.md R100: without `LOG_CORRUPTION` a `FEED` leaves the same buffer and the same trace less its
`FrameCorruption` events. -/
def Obligations.CorruptionReportIsOptional : Prop :=
  ∀ (chunk : List Byte) (s : State), ∃ (b' : Memory) (tr : List Event),
    exec (.feed chunk) { s with cfg := { s.cfg with logCorruption := true } } =
      .next { s with cfg := { s.cfg with logCorruption := true }, buf := b',
                     delivered := s.delivered ++ [⟨none, tr⟩] } ∧
    exec (.feed chunk) { s with cfg := { s.cfg with logCorruption := false } } =
      .next { s with cfg := { s.cfg with logCorruption := false }, buf := b',
                     delivered := s.delivered ++ [⟨none, tr.filter (fun e => !e.isCorruption)⟩] }

/-! ## Invariants of the buffer -/

/-- 10_state.md R23: after a `FEED`, from whatever buffer, exactly one of (Q1), (Q2), (Q3) holds, and the phase is the
one R23 names for it. -/
def Obligations.FeedLeavesQuiescentBuffer : Prop :=
  ∀ (chunk : List Byte) (s : State), s.cfg.wf = true →
    ∃ t, exec (.feed chunk) s = .next t ∧
      (Q1 t.cfg t.buf = true ∧ Q2 t.cfg t.buf = false ∧ Q3 t.cfg t.buf = false ∧ phase t.cfg t.buf = .seekingHeader ∨
       Q1 t.cfg t.buf = false ∧ Q2 t.cfg t.buf = true ∧ Q3 t.cfg t.buf = false ∧ phase t.cfg t.buf = .haveHeader ∨
       Q1 t.cfg t.buf = false ∧ Q2 t.cfg t.buf = false ∧ Q3 t.cfg t.buf = true ∧ phase t.cfg t.buf = .accumulating)

/-- 10_state.md R29, 70_reset_and_hazards.md R116: a fresh block meets the invariant, has an empty buffer, no event and
the phase `SEEKING_HEADER`; the reset state is the one of the default configuration. -/
def Obligations.FreshBlockMeetsInvariant : Prop :=
  (∀ cfg : Cfg, cfg.wf = true → (State.init cfg).inv = true ∧ (State.init cfg).buf = [] ∧
    (State.init cfg).delivered = [] ∧ phase cfg (State.init cfg).buf = .seekingHeader) ∧
  State.reset = State.init ⟨0xAA#8, 0x55#8, 1024, 255, 0, 0, true⟩ ∧ State.reset.inv = true

/-- 10_state.md R23: every step keeps the configuration in range and the buffer quiescent. -/
def Obligations.StepKeepsInvariant : Prop :=
  ∀ s t : State, s.inv = true → step s = .next t → t.inv = true

/-- 10_state.md R21: after every operation `len(buf) <= CAP`. A `FEED` restores the bound from every buffer, and every
other operation keeps it. -/
def Obligations.OperationsKeepCapacity : Prop :=
  ∀ (i : Instr) (s : State), s.cfg.wf = true →
    (s.buf.length ≤ s.cfg.cap ∨ ∃ chunk, i = .feed chunk) →
    ∃ t, exec i s = .next t ∧ t.buf.length ≤ t.cfg.cap

/-- 10_state.md R24: after every operation `len(buf) <= RMAX`; `RMAX <= CAP`; the bound is reached by a header-free
residual of `floor(CAP / 2)` bytes; with the defaults it is 512. -/
def Obligations.ResidualIsBounded : Prop :=
  (∀ (i : Instr) (s : State), s.inv = true → ∃ t, exec i s = .next t ∧
    t.buf.length ≤ max (t.cfg.cap / 2) (t.cfg.maxLen + 4)) ∧
  (∀ (cfg : Cfg) (x : Byte), cfg.wf = true → x ≠ cfg.hdr →
    max (cfg.cap / 2) (cfg.maxLen + 4) ≤ cfg.cap ∧
    exec (.feed (List.replicate (cfg.cap / 2) x)) (State.init cfg) =
      .next ⟨cfg, List.replicate (cfg.cap / 2) x, [], [⟨none, []⟩]⟩) ∧
  residualMax Cfg.default = 512

/-- 70_reset_and_hazards.md R123: from a quiescent buffer a chunk of at most `CAP - RMAX` bytes never overflows. -/
def Obligations.SmallChunkNeverOverflows : Prop :=
  ∀ (chunk : List Byte) (s : State), s.inv = true → chunk.length ≤ s.cfg.cap - residualMax s.cfg →
    ∃ (t : State) (tr : List Event), exec (.feed chunk) s = .next t ∧ t.events = s.events ++ tr ∧ NoOverflow tr

/-- 41_stream_decoder.md R84: `FEED []` on a quiescent buffer changes nothing and produces an empty trace, and the loop
on a quiescent buffer is idempotent. -/
def Obligations.EmptyFeedChangesNothing : Prop :=
  ∀ s : State, s.inv = true →
    exec (.feed []) s = .next { s with delivered := s.delivered ++ [⟨none, []⟩] } ∧
    scanAll s.cfg s.buf = (s.buf, [])

/-! ## stream_decoder: streams of frames -/

/-- 41_stream_decoder.md R86: from a header-free buffer with room, `FEED` of what `ENCODE` transmits gives exactly the
frame back and leaves `buf = []`; with the defaults there is always room. -/
def Obligations.EncodeThenFeedGivesTheFrame : Prop :=
  (∀ (c : Byte) (p : List Byte) (s : State), s.cfg.wf = true → s.cfg.hdr ∉ s.buf → p.length ≤ s.cfg.maxLen →
    s.buf.length + 5 + p.length ≤ s.cfg.cap →
    ∃ F, exec (.encode c p) s = .next { s with delivered := s.delivered ++ [⟨none, [.tx F]⟩] } ∧
      exec (.feed F) s = .next { s with buf := [], delivered := s.delivered ++ [⟨none, [.frame c p]⟩] }) ∧
  ∀ (b : Memory) (p : List Byte), Q1 Cfg.default b = true → p.length ≤ 255 →
    b.length + 5 + p.length ≤ Cfg.default.cap

/-- 70_reset_and_hazards.md R121 with 41_stream_decoder.md R86: the `Tx` results of several `ENCODE`s, written whole one
after the other, give exactly those frames in that order. -/
def Obligations.WholeWritesGiveAllFrames : Prop :=
  ∀ (fs : List (Byte × List Byte)) (s : State), s.cfg.wf = true → s.cfg.hdr ∉ s.buf →
    (∀ f ∈ fs, f.2.length ≤ s.cfg.maxLen) → fs ≠ [] →
    s.buf.length + (fs.flatMap (fun f => frameBytes s.cfg f.1 f.2)).length ≤ s.cfg.cap →
    exec (.feed (fs.flatMap (fun f => frameBytes s.cfg f.1 f.2))) s =
      .next { s with buf := [], delivered := s.delivered ++ [⟨none, fs.map (fun f => .frame f.1 f.2)⟩] }

/-- 41_stream_decoder.md R85: feeding a stream in chunks and feeding it whole give the same events when neither
overflows, and the same buffer when either final buffer holds a header. -/
def Obligations.ChunkBoundariesDoNotMatter : Prop :=
  ∀ (chunks : List (List Byte)) (s : State), chunks ≠ [] →
    ∃ (t₁ t₂ : State) (tr₁ tr₂ : List Event),
      execAll (chunks.map Instr.feed) s = .next t₁ ∧ t₁.events = s.events ++ tr₁ ∧
      exec (.feed chunks.flatten) s = .next t₂ ∧ t₂.events = s.events ++ tr₂ ∧
      (NoOverflow tr₁ → NoOverflow tr₂ →
        tr₁ = tr₂ ∧ (s.cfg.hdr ∈ t₁.buf ∨ s.cfg.hdr ∈ t₂.buf → t₁.buf = t₂.buf))

/-- 20_memory.md R40: the frames emitted by any feeds, overflows included, are decodings of runs of `5 + len(p)` bytes
that stand in the stream in that order without overlap, and what `buf` holds stands behind them. -/
def Obligations.FramesStandInTheStream : Prop :=
  ∀ (chunks : List (List Byte)) (s : State),
    ∃ (t : State) (fs : List (Byte × List Byte)),
      execAll (chunks.map Instr.feed) s = .next t ∧ t.framePort = s.framePort ++ fs ∧
      (∀ f ∈ fs, f.2.length ≤ s.cfg.maxLen ∧ (frameBytes s.cfg f.1 f.2).length = 5 + f.2.length) ∧
      InOrder (s.buf ++ chunks.flatten) (fs.map (fun f => frameBytes s.cfg f.1 f.2)) t.buf

/-- 41_stream_decoder.md R87, first case: garbage without a header before a valid frame is discarded without an event.
-/
def Obligations.HeaderFreeGarbageIsSkipped : Prop :=
  ∀ (g : List Byte) (c : Byte) (p : List Byte) (s : State), s.cfg.wf = true → s.cfg.hdr ∉ s.buf → s.cfg.hdr ∉ g →
    p.length ≤ s.cfg.maxLen → s.buf.length + g.length + 5 + p.length ≤ s.cfg.cap →
    exec (.feed (g ++ frameBytes s.cfg c p)) s =
      .next { s with buf := [], delivered := s.delivered ++ [⟨none, [.frame c p]⟩] }

/-- 41_stream_decoder.md R88, first case: a frame with one byte changed among `cmdType`, the payload and the checksum is
rejected at `[h-drop]`; the decoder goes on behind its header, and when no header stands there the next valid frame is
emitted. A flipped bit is such a change. -/
def Obligations.ChangedByteIsRejected : Prop :=
  ∀ (c d x : Byte) (p q : List Byte) (i : Nat) (s : State), s.cfg.wf = true → s.cfg.hdr ∉ s.buf →
    p.length ≤ s.cfg.maxLen → q.length ≤ s.cfg.maxLen →
    let L : Byte := BitVec.ofNat 8 p.length
    let body := c :: L :: p ++ [checksum c L p]
    i < body.length → i ≠ 1 → body[i]? ≠ some x →
    s.buf.length + (5 + p.length) + (5 + q.length) ≤ s.cfg.cap →
    (∃ (t : State) (tr : List Event), exec (.feed (s.cfg.hdr :: body.set i x ++ [s.cfg.tl])) s = .next t ∧
      t.events = s.events ++ reportCorruption s.cfg .checksum ++ tr ∧
      LoopRun s.cfg (body.set i x ++ [s.cfg.tl]) tr t.buf) ∧
    (s.cfg.hdr ∉ body.set i x ++ [s.cfg.tl] →
      exec (.feed (s.cfg.hdr :: body.set i x ++ [s.cfg.tl] ++ frameBytes s.cfg d q)) s =
        .next { s with buf := [], delivered := s.delivered ++
          [⟨none, reportCorruption s.cfg .checksum ++ [.frame d q]⟩] })

/-- 41_stream_decoder.md R88, second case: a frame with another tail byte is rejected at `[g-drop]`, in the same way. -/
def Obligations.ChangedTailIsRejected : Prop :=
  ∀ (c d x : Byte) (p q : List Byte) (s : State), s.cfg.wf = true → s.cfg.hdr ∉ s.buf →
    p.length ≤ s.cfg.maxLen → q.length ≤ s.cfg.maxLen → x ≠ s.cfg.tl →
    let L : Byte := BitVec.ofNat 8 p.length
    let body := c :: L :: p ++ [checksum c L p]
    s.buf.length + (5 + p.length) + (5 + q.length) ≤ s.cfg.cap →
    (∃ (t : State) (tr : List Event), exec (.feed (s.cfg.hdr :: body ++ [x])) s = .next t ∧
      t.events = s.events ++ reportCorruption s.cfg .tail ++ tr ∧ LoopRun s.cfg (body ++ [x]) tr t.buf) ∧
    (s.cfg.hdr ∉ body ++ [x] →
      exec (.feed (s.cfg.hdr :: body ++ [x] ++ frameBytes s.cfg d q)) s =
        .next { s with buf := [], delivered := s.delivered ++ [⟨none, reportCorruption s.cfg .tail ++ [.frame d q]⟩] })

/-- 41_stream_decoder.md R89: while a candidate with declared length `L` is short of `5 + L` bytes, no byte behind it is
examined: a `FEED` that leaves it short keeps every byte and produces no event. -/
def Obligations.PendingCandidateHoldsTheStream : Prop :=
  ∀ (chunk : List Byte) (c L : Byte) (b : List Byte) (s : State), s.cfg.wf = true → s.buf = s.cfg.hdr :: c :: L :: b →
    L.toNat ≤ s.cfg.maxLen → s.buf.length + chunk.length < 5 + L.toNat →
    exec (.feed chunk) s = .next { s with buf := s.buf ++ chunk, delivered := s.delivered ++ [⟨none, []⟩] }

/-- 41_stream_decoder.md R90: any run of bytes that starts with `HDR`, has `TL` at offset `4 + L` and sums to 0 mod 256
over offsets 1 to `3 + L` is emitted as a frame, and its bytes are removed. -/
def Obligations.AnyZeroSumRunIsEmitted : Prop :=
  ∀ (c L cs : Byte) (pl : List Byte) (s : State), s.cfg.hdr ∉ s.buf → L.toNat ≤ s.cfg.maxLen → pl.length = L.toNat →
    ((c :: L :: pl ++ [cs]).map BitVec.toNat).sum % 256 = 0 → s.buf.length + 5 + pl.length ≤ s.cfg.cap →
    exec (.feed (s.cfg.hdr :: c :: L :: pl ++ [cs, s.cfg.tl])) s =
      .next { s with buf := [], delivered := s.delivered ++ [⟨none, [.frame c pl]⟩] }

/-- 70_reset_and_hazards.md R119, its header-free half alone: bytes without this configuration's header give no event;
they are kept, or trimmed past half the capacity. (A peer whose bytes hold `HDR`: `MismatchedSentinelsGiveNoFrame`.) -/
def Obligations.UnheardPeerGivesNoFrame : Prop :=
  ∀ (chunk : List Byte) (s : State), s.cfg.hdr ∉ s.buf → s.cfg.hdr ∉ chunk →
    s.buf.length + chunk.length ≤ s.cfg.cap →
    exec (.feed chunk) s = .next { s with
      buf := if s.cfg.cap < 2 * (s.buf.length + chunk.length)
        then (s.buf ++ chunk).drop (s.buf.length + chunk.length - s.cfg.nohdrKeep) else s.buf ++ chunk,
      delivered := s.delivered ++ [⟨none, []⟩] }

/-! ## Agents, ports, sessions -/

/-- 10_state.md R18, R19, R20: the caller's operations leave all but the output as it was, and their output does not
depend on `buf`. -/
def Obligations.CallerOperationsIgnoreBuffer : Prop :=
  ∀ (i : Instr) (b : Memory) (s : State), i.agent = .caller →
    ∃ (r : Option Result) (tr : List Event),
      exec i s = .next { s with delivered := s.delivered ++ [⟨r, tr⟩] } ∧
      exec i { s with buf := b } = .next { s with buf := b, delivered := s.delivered ++ [⟨r, tr⟩] }

/-- 20_memory.md R39: an operation of the encoder path and one of the decoder path commute: either order leaves the same
buffer and puts the same on each of the four ports. -/
def Obligations.EncoderAndDecoderCommute : Prop :=
  ∀ (i j : Instr) (s : State), i.agent = .caller → j.agent = .readerLoop →
    ∃ t u, execAll [i, j] s = .next t ∧ execAll [j, i] s = .next u ∧
      t.cfg = u.cfg ∧ t.buf = u.buf ∧ t.pending = u.pending ∧ t.framePort = u.framePort ∧
      t.errorPort = u.errorPort ∧ t.txPort = u.txPort ∧ t.resultPort = u.resultPort

/-- 60_exceptions.md R99, R102: a `FEED` reports `FrameCorruption` and `BufferOverflow` alone, an `ENCODE` returns
`EncodeTooLarge` alone, and the others none; so the block raises neither `TransportError` nor `PayloadTooShort`. -/
def Obligations.ErrorsOfEachOperation : Prop :=
  ∀ (i : Instr) (s : State), ∃ (t : State) (r : Option Result) (tr : List Event),
    exec i s = .next t ∧ t.delivered = s.delivered ++ [⟨r, tr⟩] ∧
    (∀ e, Event.err e ∈ tr → (∃ chunk, i = .feed chunk) ∧
      ((∃ reason, e = .frameCorruption reason) ∨ ∃ n, e = .bufferOverflow n)) ∧
    (∀ e, r = some (.error e) → ∃ c p, i = .encode c p ∧ e = .encodeTooLarge p.length)

/-- 60_exceptions.md R99: the codes and the recorded information. -/
def Obligations.ErrorCodes : Prop :=
  ErrorInfo.transportError.code = 1 ∧ ErrorInfo.payloadTooShort.code = 3 ∧
  (∀ reason, (ErrorInfo.frameCorruption reason).code = 2 ∧ (ErrorInfo.frameCorruption reason).info = some reason.code) ∧
  Reason.length.code = 1 ∧ Reason.tail.code = 2 ∧ Reason.checksum.code = 3 ∧
  (∀ n, (ErrorInfo.bufferOverflow n).code = 4 ∧ (ErrorInfo.bufferOverflow n).info = some n) ∧
  ∀ n, (ErrorInfo.encodeTooLarge n).code = 5 ∧ (ErrorInfo.encodeTooLarge n).info = some n

/-- 70_reset_and_hazards.md R122: after a `DISCARD` nothing depends on the bytes of the session before it. -/
def Obligations.DiscardForgetsTheSession : Prop :=
  ∀ (ops : List Instr) (b : Memory) (s : State),
    execAll (.discard :: ops) { s with buf := b } = execAll (.discard :: ops) s

/-- 70_reset_and_hazards.md R116, R122, 60_exceptions.md R102: at the end of a session, of whichever kind, the reader
loop issues `DISCARD` and feeds none of the bytes that still come (the list of kinds is the model's reading, log 17). -/
def Obligations.ReaderFeedsNothingAfterTheEnd : Prop :=
  ∀ (live : Bool) (before after : List LinkEvent) (ending : LinkEvent) (late : List (List Byte)),
    ending ∈ [LinkEvent.endOfStream, .transportError, .disconnect, .cancel] →
    readerOps live (before ++ ending :: late.map LinkEvent.chunk ++ after) =
      readerOps live before ++ .discard :: readerOps false after

/-- 70_reset_and_hazards.md R118: a session starts from an empty buffer, and whether and where the raw enable command is
sent (`RAW_ENABLE_REQUIRED`, open) changes the transmit port alone, by that command. -/
def Obligations.SessionIgnoresRawEnable : Prop :=
  ∀ (required : Option Nat) (ops : List Instr) (s : State),
    ∃ t u, execAll (sessionOps required ops) s = .next t ∧ execAll ops { s with
        buf := [], delivered := s.delivered ++ [⟨none, []⟩] } = .next u ∧
      t.buf = u.buf ∧ t.framePort = u.framePort ∧ t.errorPort = u.errorPort ∧ t.resultPort = u.resultPort ∧
      (required = none → t.txPort = u.txPort) ∧
      (∀ k, required = some k → ∃ a b, u.txPort = a ++ b ∧ t.txPort = a ++ frameEnable :: b)

/-- 30_encoding.md R59: `FEEDFRAME c, [p]` is the `FEED` of what `ENCODE c, [p]` transmits, and requires `len(p) <=
255`; `RESET` is `DISCARD`. -/
def Obligations.PseudoOperationsExpand : Prop :=
  ∀ (c : Byte) (p : List Byte) (s : State),
    (p.length ≤ 255 → ∃ F, exec (.encode c p) s = .next { s with delivered := s.delivered ++ [⟨none, [.tx F]⟩] } ∧
      expandPseudo s.cfg (.feedFrame c p) = some (.feed F)) ∧
    (255 < p.length → expandPseudo s.cfg (.feedFrame c p) = none) ∧
    expandPseudo s.cfg .reset = some .discard

/-- 30_encoding.md R58: the written form of an operation reads back as it (how spaces, small digits and comments are
read is the model's choice, log 16). -/
def Obligations.WrittenOperationReadsBack : Prop :=
  ∀ i : Instr, readLine (instrText i) = some i

/-- 00_scope.md R8 with 10_state.md R21, R23, R24, R27: whatever the cycle-level protocol of a conforming implementation
is, from an operation boundary that meets the invariant every operation leads to one that does, with the buffer within
`CAP` and `RMAX`, the same configuration, and one more output delivered; `DISCARD` leads to an empty buffer. -/
def Obligations.ConformingProtocolKeepsInvariant : Prop :=
  ∀ (σ : Type) (P : PortProtocol σ), P.Conforms → ∀ (ops : List Instr) (c : σ), (P.view c).inv = true →
    let c' := ops.foldl (fun x i => P.perform i x) c
    (P.view c').inv = true ∧
    (P.view c').buf.length ≤ (P.view c).cfg.cap ∧
    (P.view c').buf.length ≤ residualMax (P.view c).cfg ∧
    (P.view c').cfg = (P.view c).cfg ∧
    (P.view c').delivered.length = (P.view c).delivered.length + ops.length ∧
    (P.view (P.perform .discard c')).buf = []

/-- 70_reset_and_hazards.md R119, 41_stream_decoder.md R78: a peer's frame is no valid frame of a block with another header
or another tail. A peer with the block's header and another tail, whose frames hold `HDR` at no other place, gives one
`FrameCorruption(TAIL)` for each frame (where `LOG_CORRUPTION`) and no frame, and what is left holds no header. -/
def Obligations.MismatchedSentinelsGiveNoFrame : Prop :=
  (∀ (cfg peer : Cfg) (c c' : Byte) (p p' : List Byte) (rest rest' : Memory), p.length ≤ 255 →
    peer.hdr ≠ cfg.hdr ∨ peer.tl ≠ cfg.tl → ¬ StartsWithFrame cfg (frameBytes peer c p ++ rest) c' p' rest') ∧
  ∀ (peer : Cfg) (fs : List (Byte × List Byte)) (s : State), s.cfg.wf = true → peer.hdr = s.cfg.hdr →
    peer.tl ≠ s.cfg.tl → s.cfg.hdr ∉ s.buf →
    (∀ f ∈ fs, f.2.length ≤ s.cfg.maxLen ∧ s.cfg.hdr ∉ (frameBytes peer f.1 f.2).drop 1) →
    s.buf.length + (fs.flatMap (fun f => frameBytes peer f.1 f.2)).length ≤ s.cfg.cap →
    ∃ b', s.cfg.hdr ∉ b' ∧ exec (.feed (fs.flatMap (fun f => frameBytes peer f.1 f.2))) s =
      .next { s with buf := b', delivered := s.delivered ++
        [⟨none, fs.flatMap (fun _ => reportCorruption s.cfg .tail)⟩] }
end

