-- ==== Sys2Proof/Laws/State.lean ====
section
/-! SUPPORT. One lemma per field per update of the state, and what the ports show after a delivery. -/

namespace Sys2Proof.Machine

variable (s : State) (b : Memory) (ds : List Descriptor) (d : Descriptor) (r : Option Result) (tr : List Event) (n w : Nat)

@[simp] theorem State.setBuf_cfg : (s.setBuf b).cfg = s.cfg := rfl
@[simp] theorem State.setBuf_buf : (s.setBuf b).buf = b := rfl
@[simp] theorem State.setBuf_pending : (s.setBuf b).pending = s.pending := rfl
@[simp] theorem State.setBuf_delivered : (s.setBuf b).delivered = s.delivered := rfl

@[simp] theorem State.deliver_cfg : (s.deliver r tr).cfg = s.cfg := rfl
@[simp] theorem State.deliver_buf : (s.deliver r tr).buf = s.buf := rfl
@[simp] theorem State.deliver_pending : (s.deliver r tr).pending = s.pending := rfl
@[simp] theorem State.deliver_delivered : (s.deliver r tr).delivered = s.delivered ++ [⟨r, tr⟩] := rfl

@[simp] theorem State.setPending_cfg : (s.setPending ds).cfg = s.cfg := rfl
@[simp] theorem State.setPending_buf : (s.setPending ds).buf = s.buf := rfl
@[simp] theorem State.setPending_pending : (s.setPending ds).pending = ds := rfl
@[simp] theorem State.setPending_delivered : (s.setPending ds).delivered = s.delivered := rfl

@[simp] theorem State.submit_cfg : (s.submit d).cfg = s.cfg := rfl
@[simp] theorem State.submit_buf : (s.submit d).buf = s.buf := rfl
@[simp] theorem State.submit_pending : (s.submit d).pending = s.pending ++ [d] := rfl
@[simp] theorem State.submit_delivered : (s.submit d).delivered = s.delivered := rfl

@[simp] theorem State.withFetchWord_cfg : (s.withFetchWord n w).cfg = s.cfg := rfl
@[simp] theorem State.withFetchWord_buf : (s.withFetchWord n w).buf = s.buf := rfl
@[simp] theorem State.withFetchWord_pending :
    (s.withFetchWord n w).pending = tableDescriptor n w :: s.pending := rfl
@[simp] theorem State.withFetchWord_delivered : (s.withFetchWord n w).delivered = s.delivered := rfl

@[simp] theorem State.init_cfg (cfg : Cfg) : (State.init cfg).cfg = cfg := rfl
@[simp] theorem State.init_buf (cfg : Cfg) : (State.init cfg).buf = [] := rfl
@[simp] theorem State.init_pending (cfg : Cfg) : (State.init cfg).pending = [] := rfl
@[simp] theorem State.init_delivered (cfg : Cfg) : (State.init cfg).delivered = [] := rfl

@[simp] theorem State.events_deliver : (s.deliver r tr).events = s.events ++ tr := by
  simp [State.events]

@[simp] theorem State.framePort_deliver :
    (s.deliver r tr).framePort = s.framePort ++ tr.filterMap Event.frame? := by
  simp [State.framePort]

@[simp] theorem State.errorPort_deliver :
    (s.deliver r tr).errorPort = s.errorPort ++ tr.filterMap Event.err? := by
  simp [State.errorPort]

@[simp] theorem State.txPort_deliver : (s.deliver r tr).txPort = s.txPort ++ tr.filterMap Event.tx? := by
  simp [State.txPort]

@[simp] theorem State.resultPort_deliver : (s.deliver r tr).resultPort = s.resultPort ++ r.toList := by
  cases r <;> simp [State.resultPort]

@[simp] theorem State.events_setBuf : (s.setBuf b).events = s.events := rfl
@[simp] theorem State.framePort_setBuf : (s.setBuf b).framePort = s.framePort := rfl
@[simp] theorem State.errorPort_setBuf : (s.setBuf b).errorPort = s.errorPort := rfl
@[simp] theorem State.txPort_setBuf : (s.setBuf b).txPort = s.txPort := rfl
@[simp] theorem State.resultPort_setBuf : (s.setBuf b).resultPort = s.resultPort := rfl

@[simp] theorem State.events_setPending : (s.setPending ds).events = s.events := rfl
@[simp] theorem State.framePort_setPending : (s.setPending ds).framePort = s.framePort := rfl
@[simp] theorem State.errorPort_setPending : (s.setPending ds).errorPort = s.errorPort := rfl
@[simp] theorem State.txPort_setPending : (s.setPending ds).txPort = s.txPort := rfl
@[simp] theorem State.resultPort_setPending : (s.setPending ds).resultPort = s.resultPort := rfl

end Sys2Proof.Machine
end

