-- ==== Sys2Proof/Laws/Ops.lean ====
section
/-! SUPPORT. What each sequence and buffer primitive does, that every one keeps the capacity bound, and what fetching
answers. -/

namespace Sys2Proof.Machine

/-! ## Sequences -/

theorem has_iff {v : Byte} {s : List Byte} : has v s = true ↔ v ∈ s := by
  simp [has]

theorem has_eq_false_iff {v : Byte} {s : List Byte} : has v s = false ↔ v ∉ s := by
  rw [← has_iff, Bool.not_eq_true]

/-- The first header of a stream stands right after its header-free run. -/
theorem first_append {v : Byte} {g : List Byte} (h : v ∉ g) (b : List Byte) :
    first v (g ++ v :: b) = g.length := by
  induction g with
  | nil => simp [first, List.findIdx_cons]
  | cons x g ih =>
    obtain ⟨hx, hg⟩ : v ≠ x ∧ v ∉ g := by simpa using h
    have hf : (x == v) = false := by simpa using fun e => hx e.symm
    have ih' := ih hg
    simp only [first] at ih' ⊢
    simp [List.findIdx_cons, hf, ih']

/-- A stream that holds a header is a header-free run, the header, and the rest. -/
theorem mem_split_first {v : Byte} {s : List Byte} (h : v ∈ s) : ∃ g b, s = g ++ v :: b ∧ v ∉ g := by
  induction s with
  | nil => simp at h
  | cons x s ih =>
    by_cases hx : x = v
    · exact ⟨[], s, by simp [hx], by simp⟩
    · obtain ⟨g, b, rfl, hg⟩ := ih ((List.mem_cons.1 h).resolve_left (Ne.symm hx))
      exact ⟨x :: g, b, rfl, by simp [hg, Ne.symm hx]⟩

theorem lastn_length (n : Nat) (s : List Byte) : (lastn n s).length = min n s.length := by
  simp only [lastn, List.length_drop]; omega

theorem lastn_suffix (n : Nat) (s : List Byte) : lastn n s <:+ s := List.drop_suffix _ _

@[simp] theorem lastn_zero (s : List Byte) : lastn 0 s = [] := by simp [lastn]

@[simp] theorem sumBytes_nil : sumBytes [] = 0 := rfl
@[simp] theorem sumBytes_cons (x : Byte) (s : List Byte) : sumBytes (x :: s) = x.toNat + sumBytes s := rfl

theorem sumBytes_append (s t : List Byte) : sumBytes (s ++ t) = sumBytes s + sumBytes t := by
  induction s with
  | nil => simp
  | cons x s ih => simp [ih]; omega

theorem sumBytes_eq_sum (s : List Byte) : sumBytes s = (s.map BitVec.toNat).sum := by
  induction s with
  | nil => rfl
  | cons x s ih => simp [ih]

/-! ## The capacity bound is kept by every buffer primitive -/

theorem Memory.wf_iff {cap : Nat} {b : Memory} : Memory.wf cap b = true ↔ b.length ≤ cap := by
  simp [Memory.wf]

theorem Memory.wf_nil (cap : Nat) : Memory.wf cap [] = true := by simp [Memory.wf]

theorem Memory.wf_suffix {cap : Nat} {b b' : Memory} (h : Memory.wf cap b = true) (hs : b' <:+ b) :
    Memory.wf cap b' = true :=
  Memory.wf_iff.2 (hs.length_le.trans (Memory.wf_iff.1 h))

theorem Memory.wf_bufDropFront {cap : Nat} {b : Memory} (n : Nat) (h : Memory.wf cap b = true) :
    Memory.wf cap (bufDropFront n b) = true :=
  Memory.wf_suffix h (List.drop_suffix _ _)

theorem Memory.wf_lastn {cap : Nat} {b : Memory} (n : Nat) (h : Memory.wf cap b = true) :
    Memory.wf cap (lastn n b) = true :=
  Memory.wf_suffix h (lastn_suffix n b)

/-- An append keeps the bound exactly when it is no overflow. -/
theorem Memory.wf_bufAppend {cap : Nat} {b : Memory} {s : List Byte} :
    Memory.wf cap (bufAppend b s) = true ↔ b.length + s.length ≤ cap := by
  simp [Memory.wf, bufAppend]

/-- The cut of an overflow restores it. -/
theorem Memory.wf_overflow {cfg : Cfg} (h : cfg.wf = true) (b : Memory) :
    Memory.wf cfg.cap (lastn cfg.ovfKeep b) = true := by
  simp only [Cfg.wf, Bool.and_eq_true, decide_eq_true_eq] at h
  rw [Memory.wf_iff, lastn_length]; omega

theorem Memory.wf_reset : Memory.wf State.reset.cfg.cap State.reset.buf = true := by decide

/-! ## Configurations -/

theorem Cfg.wf_iff {cfg : Cfg} : cfg.wf = true ↔
    cfg.maxLen ≤ 255 ∧ 5 + cfg.maxLen ≤ cfg.cap ∧ cfg.ovfKeep ≤ cfg.cap ∧ 2 * cfg.nohdrKeep ≤ cfg.cap := by
  simp only [Cfg.wf, Bool.and_eq_true, decide_eq_true_eq, and_assoc]
  rfl

/-! ## The operation input -/

theorem State.fetch_idle {s : State} (hc : s.cfg.wf = true) (hp : s.pending = []) : s.fetch = .idle := by
  simp [State.fetch, hc, hp]

theorem State.fetch_run {s : State} {d : Descriptor} {ds : List Descriptor} {i : Instr} (hc : s.cfg.wf = true)
    (hp : s.pending = d :: ds) (hd : decode d = .ok i) : s.fetch = .run i (s.setPending ds) := by
  simp [State.fetch, hc, hp, hd]

theorem State.fetch_illegal {s : State} {d : Descriptor} {ds : List Descriptor} {e : DecodeError}
    (hc : s.cfg.wf = true) (hp : s.pending = d :: ds) (hd : decode d = .error e) :
    s.fetch = .refuse (.illegalDescriptor e) := by
  simp [State.fetch, hc, hp, hd]

theorem State.fetch_cfg {s : State} (hc : s.cfg.wf = false) : s.fetch = .refuse .cfgOutOfRange := by
  simp [State.fetch, hc]

/-- Everything a step can do. -/
theorem step_cases {s t : State} (h : step s = .next t) :
    s.cfg.wf = true ∧ (s.pending = [] ∧ t = s ∨
      ∃ d ds i, s.pending = d :: ds ∧ decode d = .ok i ∧ exec i (s.setPending ds) = .next t) := by
  unfold step at h
  cases hc : s.cfg.wf with
  | false => simp [State.fetch_cfg hc] at h
  | true =>
    refine ⟨rfl, ?_⟩
    cases hp : s.pending with
    | nil =>
      rw [State.fetch_idle hc hp] at h
      exact .inl ⟨rfl, by simpa using h.symm⟩
    | cons d ds =>
      cases hd : decode d with
      | error e => simp [State.fetch_illegal hc hp hd] at h
      | ok i =>
        rw [State.fetch_run hc hp hd] at h
        exact .inr ⟨d, ds, i, rfl, hd, h⟩

end Sys2Proof.Machine
end

