-- ==== Sys2Proof/Laws/Checksum.lean ====
section
/-! SUPPORT. What the checksum function and the frame of the encoder are worth, and the meanings of the caller's
operations as equations. -/

namespace Sys2Proof.Machine

theorem checksum_toNat (c L : Byte) (p : List Byte) :
    (checksum c L p).toNat = (256 - (c.toNat + L.toNat + sumBytes p) % 256) % 256 := by
  simp [checksum]

theorem lengthByte_toNat {p : List Byte} (h : p.length ≤ 255) : (lengthByte p).toNat = p.length := by
  simp only [lengthByte, BitVec.toNat_ofNat]; omega

theorem lengthByte_eq {p : List Byte} {L : Byte} (h : p.length = L.toNat) : lengthByte p = L := by
  simp [lengthByte, h]

theorem frameBytes_length (cfg : Cfg) (c : Byte) (p : List Byte) : (frameBytes cfg c p).length = 5 + p.length := by
  simp [frameBytes]; omega

/-- The frame as its header and what stands behind it. -/
theorem frameBytes_cons (cfg : Cfg) (c : Byte) (p rest : List Byte) :
    frameBytes cfg c p ++ rest =
      cfg.hdr :: c :: lengthByte p :: p ++ checksum c (lengthByte p) p :: cfg.tl :: rest := by
  simp [frameBytes]

theorem exec_checksum (c L : Byte) (p : List Byte) (s : State) :
    exec (.checksum c L p) s = .next (s.deliver (some (.byte (checksum c L p))) []) := rfl

theorem exec_encode_frame {c : Byte} {p : List Byte} (s : State) (h : p.length ≤ 255) :
    exec (.encode c p) s = .next (s.deliver none [.tx (frameBytes s.cfg c p)]) :=
  if_neg (by simp only [encMax]; omega)

theorem exec_encode_tooLarge {c : Byte} {p : List Byte} (s : State) (h : 255 < p.length) :
    exec (.encode c p) s = .next (s.deliver (some (.error (.encodeTooLarge p.length))) []) :=
  if_pos h

theorem exec_encodeRaw (r : List Byte) (s : State) : exec (.encodeRaw r) s = .next (s.deliver none [.tx r]) := rfl

theorem exec_discard (s : State) : exec .discard s = .next ((s.setBuf []).deliver none []) := rfl

theorem exec_feed (chunk : List Byte) (s : State) :
    exec (.feed chunk) s =
      .next ((s.setBuf (feedBuffer s.cfg s.buf chunk).1).deliver none (feedBuffer s.cfg s.buf chunk).2) := rfl

end Sys2Proof.Machine
end

