-- ==== Sys2Proof/Laws/Decoder.lean ====
section
/-! SUPPORT. One equation per label of 41_stream_decoder.md R69: what an iteration does with a buffer of each shape, and
how the loop and `FEED` go on from it. -/

namespace Sys2Proof.Machine

variable {cfg : Cfg} {c L cs tl : Byte} {b b' g pl rest : List Byte} {tr : List Event}

/-- `[a-trim]`, `[a-stop]`. -/
theorem scanIter_noHeader (h : cfg.hdr ∉ b) : scanIter cfg b = .exit (trim cfg b) := by
  simp [scanIter, has_eq_false_iff.2 h]

/-- `[b-discard]`: an iteration from a header-free run is the iteration from the header behind it. -/
theorem scanIter_discard (h : cfg.hdr ∉ g) :
    scanIter cfg (g ++ cfg.hdr :: b) = (classify cfg (cfg.hdr :: b)).act cfg (cfg.hdr :: b) := by
  have hm : has cfg.hdr (g ++ cfg.hdr :: b) = true := has_iff.2 (by simp)
  simp [scanIter, hm, first_append h, bufDropFront]

theorem scanIter_header : scanIter cfg (cfg.hdr :: b) = (classify cfg (cfg.hdr :: b)).act cfg (cfg.hdr :: b) :=
  scanIter_discard (g := []) (by simp)

/-- `[c-stop]`. -/
theorem classify_short (h : b.length < 2) : classify cfg (cfg.hdr :: b) = .short := by
  have : ¬ 3 ≤ (cfg.hdr :: b).length := by simp only [List.length_cons]; omega
  simp only [classify, dif_neg this]

/-- `[d-drop]`. -/
theorem classify_badLength (h : cfg.maxLen < L.toNat) : classify cfg (cfg.hdr :: c :: L :: b) = .badLength := by
  simp [classify, fieldLength, byteAt, lengthValue, h]

/-- `[e-stop]`. -/
theorem classify_incomplete (hL : L.toNat ≤ cfg.maxLen) (h : b.length < L.toNat + 2) :
    classify cfg (cfg.hdr :: c :: L :: b) = .incomplete := by
  have h1 : ¬ cfg.maxLen < L.toNat := by omega
  have h2 : ¬ 5 + L.toNat ≤ b.length + 1 + 1 + 1 := by omega
  simp [classify, fieldLength, byteAt, lengthValue, frameLength, overhead, h1, h2]

/-- The tests on a whole candidate, after the length test. -/
theorem classify_whole (hL : L.toNat ≤ cfg.maxLen) (hp : pl.length = L.toNat) :
    classify cfg (cfg.hdr :: c :: L :: pl ++ cs :: tl :: rest) =
      if tl ≠ cfg.tl then .badTail else if checksum c L pl ≠ cs then .badChecksum else .valid c pl := by
  have h1 : ¬ cfg.maxLen < L.toNat := by omega
  have h2 : 5 + L.toNat ≤ (cfg.hdr :: c :: L :: pl ++ cs :: tl :: rest).length := by simp; omega
  have h3 : 3 ≤ (cfg.hdr :: c :: L :: pl ++ cs :: tl :: rest).length := by omega
  have hcs : (cfg.hdr :: c :: L :: pl ++ cs :: tl :: rest)[3 + L.toNat]? = some cs := by
    rw [show 3 + L.toNat = pl.length + 1 + 1 + 1 by omega]; simp
  have htl : (cfg.hdr :: c :: L :: pl ++ cs :: tl :: rest)[4 + L.toNat]? = some tl := by
    rw [show 4 + L.toNat = pl.length + 1 + 1 + 1 + 1 by omega]; simp
  have hpl : ((cfg.hdr :: c :: L :: pl ++ cs :: tl :: rest).drop 3).take L.toNat = pl := by
    rw [← hp]; simp
  have e3 := (List.getElem?_eq_some_iff.1 hcs).2
  have e4 := (List.getElem?_eq_some_iff.1 htl).2
  unfold classify
  rw [dif_pos h3]
  have eL : fieldLength (cfg.hdr :: c :: L :: pl ++ cs :: tl :: rest) h3 = L := rfl
  have ec : fieldCmdType (cfg.hdr :: c :: L :: pl ++ cs :: tl :: rest) h3 = c := rfl
  simp only [eL, ec, lengthValue, frameLength, overhead, h1, if_false, h2, dif_pos, fieldPayload, fieldChecksum, fieldTail,
    memRead, byteAt, hpl, e3, e4]

/-! The iteration, label by label, from a header-free run `g` (possibly empty) before the candidate. -/

/-- `[c-stop]`. -/
theorem scanIter_short (hg : cfg.hdr ∉ g) (h : b.length < 2) :
    scanIter cfg (g ++ cfg.hdr :: b) = .exit (cfg.hdr :: b) := by
  rw [scanIter_discard hg, classify_short h]; rfl

/-- `[d-drop]`. -/
theorem scanIter_badLength (hg : cfg.hdr ∉ g) (h : cfg.maxLen < L.toNat) :
    scanIter cfg (g ++ cfg.hdr :: c :: L :: b) = .again (reportCorruption cfg .length) (c :: L :: b) := by
  rw [scanIter_discard hg, classify_badLength h]; rfl

/-- `[e-stop]`. -/
theorem scanIter_incomplete (hg : cfg.hdr ∉ g) (hL : L.toNat ≤ cfg.maxLen) (h : b.length < L.toNat + 2) :
    scanIter cfg (g ++ cfg.hdr :: c :: L :: b) = .exit (cfg.hdr :: c :: L :: b) := by
  rw [scanIter_discard hg, classify_incomplete hL h]; rfl

/-- `[g-drop]`. -/
theorem scanIter_badTail (hg : cfg.hdr ∉ g) (hL : L.toNat ≤ cfg.maxLen) (hp : pl.length = L.toNat)
    (ht : tl ≠ cfg.tl) :
    scanIter cfg (g ++ cfg.hdr :: (c :: L :: pl ++ cs :: tl :: rest)) =
      .again (reportCorruption cfg .tail) (c :: L :: pl ++ cs :: tl :: rest) := by
  rw [scanIter_discard hg]
  have h := classify_whole (c := c) (cs := cs) (tl := tl) (rest := rest) hL hp
  rw [List.cons_append, if_pos ht] at h
  rw [h]; rfl

/-- `[h-drop]`. -/
theorem scanIter_badChecksum (hg : cfg.hdr ∉ g) (hL : L.toNat ≤ cfg.maxLen) (hp : pl.length = L.toNat)
    (hc : checksum c L pl ≠ cs) :
    scanIter cfg (g ++ cfg.hdr :: (c :: L :: pl ++ cs :: cfg.tl :: rest)) =
      .again (reportCorruption cfg .checksum) (c :: L :: pl ++ cs :: cfg.tl :: rest) := by
  rw [scanIter_discard hg]
  have h := classify_whole (c := c) (cs := cs) (tl := cfg.tl) (rest := rest) hL hp
  rw [List.cons_append, if_neg (not_not.2 rfl), if_pos hc] at h
  rw [h]; rfl

/-- `[i-emit]`. -/
theorem scanIter_valid (hg : cfg.hdr ∉ g) (hL : L.toNat ≤ cfg.maxLen) (hp : pl.length = L.toNat) :
    scanIter cfg (g ++ cfg.hdr :: (c :: L :: pl ++ checksum c L pl :: cfg.tl :: rest)) =
      .again [.frame c pl] rest := by
  rw [scanIter_discard hg]
  have h := classify_whole (c := c) (cs := checksum c L pl) (tl := cfg.tl) (rest := rest) hL hp
  rw [List.cons_append, if_neg (not_not.2 rfl), if_neg (not_not.2 rfl)] at h
  rw [h]
  simp only [Verdict.act, bufDropFront, frameLength, overhead]
  rw [show 5 + pl.length = pl.length + 1 + 1 + 1 + 1 + 1 by omega]
  simp

/-- What an exit or a rescan means for the loop. -/
theorem scanLoop_exit {n : Nat} (h : scanIter cfg b = .exit b') : scanLoop cfg (n + 1) b = (b', []) := by
  simp [scanLoop, h]

theorem scanLoop_again {n : Nat} (h : scanIter cfg b = .again tr b') :
    scanLoop cfg (n + 1) b = ((scanLoop cfg n b').1, tr ++ (scanLoop cfg n b').2) := by
  simp [scanLoop, h]

/-- Step 1 without overflow. -/
theorem feedBuffer_fits {chunk : List Byte} (h : b.length + chunk.length ≤ cfg.cap) :
    feedBuffer cfg b chunk = scanAll cfg (b ++ chunk) := by
  have : ¬ cfg.cap < b.length + chunk.length := by omega
  simp [feedBuffer, this, bufAppend]

/-- Step 1 with overflow. -/
theorem feedBuffer_overflows {chunk : List Byte} (h : cfg.cap < b.length + chunk.length) :
    feedBuffer cfg b chunk =
      ((scanAll cfg (lastn cfg.ovfKeep (b ++ chunk))).1,
        .err (.bufferOverflow (b.length + chunk.length)) :: (scanAll cfg (lastn cfg.ovfKeep (b ++ chunk))).2) := by
  simp [feedBuffer, h, bufAppend]

/-- Everything an operation can do to the state: replace the buffer and deliver one output. -/
theorem exec_cases {i : Instr} {s t : State} (h : exec i s = .next t) :
    ∃ b r tr, t = (s.setBuf b).deliver r tr := by
  cases i with
  | checksum c L p => cases h; exact ⟨s.buf, _, _, rfl⟩
  | encode c p =>
    by_cases hp : 255 < p.length
    · rw [exec_encode_tooLarge s hp] at h; cases h; exact ⟨s.buf, _, _, rfl⟩
    · rw [exec_encode_frame s (by omega)] at h; cases h; exact ⟨s.buf, _, _, rfl⟩
  | encodeRaw r => cases h; exact ⟨s.buf, _, _, rfl⟩
  | feed chunk => cases h; exact ⟨_, _, _, rfl⟩
  | discard => cases h; exact ⟨[], _, _, rfl⟩

end Sys2Proof.Machine
end

