-- ==== Sys2Proof/Laws/PerInstr.lean ====
section
/-! SUPPORT. Per-instruction laws: every operation's descriptor is well formed (30_encoding.md R53, R54). -/

namespace Sys2Proof.Laws.EncodesListed

/-- The descriptor of a well-formed operation has a listed select byte and the operand kinds the table gives it. -/
def Statement (i : Instr) : Prop := i.wf = true → (encode i).wf = true

theorem checksum (c L : Byte) (p : List Byte) : Statement (.checksum c L p) := fun _ => rfl
theorem encode (c : Byte) (p : List Byte) : Statement (.encode c p) := fun _ => rfl
theorem encodeRaw (r : List Byte) : Statement (.encodeRaw r) := fun _ => rfl
theorem feed (chunk : List Byte) : Statement (.feed chunk) := fun _ => rfl
theorem discard : Statement .discard := fun _ => rfl

end Sys2Proof.Laws.EncodesListed
end

