-- ==== Sys2Proof/Tests/Slice0.lean ====
section
/-! SUPPORT. Smoke tests of the checks, decoding of words written out from 30_encoding.md R53, one or two steps of every
operation against 95_test_vectors.md, and for every statement with hypotheses a state and operands that meet them. -/

namespace Sys2Proof.Tests

open Sys2Proof Sys2Proof.Machine

/-- The state an outcome leads to, if any. -/
def nextState : Host.Outcome State Fault Refusal → Option State
  | .next s => some s
  | .fault _ => none
  | .refused _ => none

/-- The configuration S16 of 95_test_vectors.md: `CAP = 16`, `MAX_LEN = 11`. -/
def s16 : Cfg := { Cfg.default with cap := 16, maxLen := 11 }

/-- A block with a configuration and a buffer. -/
def at_ (cfg : Cfg) (b : Memory) : State := (State.init cfg).setBuf b

/-- The buffer and the last output after an operation. -/
def after (i : Instr) (s : State) : Option (Memory × List Output) :=
  (nextState (exec i s)).map (fun t => (t.buf, t.delivered))

/-- The frames `F` and `G` of 95_test_vectors.md. -/
def frameF : List Byte := [0xAA#8, 0x0B#8, 0x00#8, 0xF5#8, 0x55#8]
def frameG : List Byte := [0xAA#8, 0x01#8, 0x01#8, 0x00#8, 0xFE#8, 0x55#8]

/-! ## Checks refuse ill-formed terms (R5, R53, R59) -/

theorem test_cfg_default_wf : Cfg.default.wf = true ∧ s16.wf = true := by decide
theorem test_cfg_maxLen_too_large : ({ Cfg.default with maxLen := 256 } : Cfg).wf = false := by decide
theorem test_cfg_cap_too_small : ({ s16 with maxLen := 12 } : Cfg).wf = false := by decide
theorem test_cfg_ovfKeep_too_large : ({ s16 with ovfKeep := 17 } : Cfg).wf = false := by decide
theorem test_cfg_nohdrKeep_too_large : ({ s16 with nohdrKeep := 9 } : Cfg).wf = false := by decide
theorem test_descriptor_unlisted : (Descriptor.mk 0x00#8 []).wf = false := by decide
theorem test_descriptor_wrong_operands : (Descriptor.mk 0x11#8 [.seq [], .byte 0x00#8]).wf = false := by decide
theorem test_pseudo_too_long : (Pseudo.feedFrame 0x00#8 (List.replicate 256 0x00#8)).wf = false := by
  rw [Pseudo.wf, List.length_replicate]; rfl

/-! ## Decoding: the select codes of R53, bit by bit -/

theorem test_word_checksum : decodeTableWord 8 0b00000001 = some (.checksum 0#8 0#8 []) := by decide
theorem test_word_encode : decodeTableWord 8 0b00010001 = some (.encode 0#8 []) := by decide
theorem test_word_encodeRaw : decodeTableWord 8 0b00010010 = some (.encodeRaw []) := by decide
theorem test_word_feed : decodeTableWord 8 0b00100001 = some (.feed []) := by decide
theorem test_word_discard : decodeTableWord 8 0b00100010 = some .discard := by decide
/-- Every other word of 8 bits is refused (R55). -/
theorem test_words_unlisted :
    ((List.range 256).filter (fun w => (decodeTableWord 8 w).isSome)) = [0x01, 0x11, 0x12, 0x21, 0x22] := by
  decide
theorem test_unit_and_function : (opUnit 0x12#8, opFn 0x12#8) = (1, 2) ∧ (opUnit 0x21#8, opFn 0x21#8) = (2, 1) := by
  decide
theorem test_operands_in_order :
    decode ⟨0x01#8, [.byte 0x05#8, .byte 0x03#8, .seq [0xAA#8]]⟩ = .ok (.checksum 0x05#8 0x03#8 [0xAA#8]) := rfl
theorem test_operands_mismatch : decode ⟨0x22#8, [.seq []]⟩ = .error (.operandMismatch 0x22#8) := rfl
theorem test_first_step_runs_the_word :
    (nextState (step (State.reset.withFetchWord 8 0x01))).map State.resultPort = some [.byte 0x00#8] := by decide
/-- P5, line 5. -/
theorem test_illegal_descriptor_has_no_step :
    step (State.reset.withFetchWord 8 0x00) = .refused (.illegalDescriptor (.unlistedOp 0x00#8)) := rfl

/-! ## Operations -/

/-- V-C6, V-C14. -/
theorem test_checksum : checksum 0x10#8 0x02#8 [0xF0#8, 0x00#8] = 0xFE#8 ∧ checksum 0x01#8 0x05#8 [] = 0xFA#8 := by
  decide
/-- V-C1. -/
theorem test_checksum_step :
    after (.checksum 0x0B#8 0x00#8 []) (at_ s16 [0xAA#8]) = some ([0xAA#8], [⟨some (.byte 0xF5#8), []⟩]) := by decide
/-- V-E6. -/
theorem test_encode_sentinels_in_payload :
    after (.encode 0x05#8 [0xAA#8, 0x55#8, 0x00#8]) State.reset =
      some ([], [⟨none, [.tx [0xAA#8, 0x05#8, 0x03#8, 0xAA#8, 0x55#8, 0x00#8, 0xF9#8, 0x55#8]]⟩]) := by decide
/-- V-E8. -/
theorem test_encode_256 :
    exec (.encode 0x00#8 (List.replicate 256 0x00#8)) State.reset =
      .next (State.reset.deliver (some (.error (.encodeTooLarge 256))) []) :=
  (exec_encode_tooLarge State.reset (by rw [List.length_replicate]; omega)).trans (by rw [List.length_replicate])
/-- V-E11. -/
theorem test_encodeRaw_frame_enable :
    after (.encodeRaw frameEnable) State.reset = some ([], [⟨none, [.tx [0x66#8, 0x72#8, 0x61#8, 0x6D#8, 0x65#8, 0x5F#8,
      0x65#8, 0x6E#8, 0x61#8, 0x62#8, 0x6C#8, 0x65#8, 0x0A#8]]⟩]) := by decide
/-- P3, line 1. -/
theorem test_feed_recovers_midstream :
    after (.feed [0x00#8, 0xAA#8, 0x0B#8, 0x00#8, 0xF4#8, 0x55#8, 0xAA#8, 0x01#8, 0x01#8, 0x00#8, 0xFE#8, 0x55#8, 0xAA#8])
        State.reset =
      some ([0xAA#8], [⟨none, [.err (.frameCorruption .checksum), .frame 0x01#8 [0x00#8]]⟩]) := by decide
/-- V-D32. -/
theorem test_feed_overflow_scans_the_suffix :
    after (.feed (List.replicate 12 0x00#8 ++ frameF)) (at_ { s16 with ovfKeep := 5 } []) =
      some ([], [⟨none, [.err (.bufferOverflow 17), .frame 0x0B#8 []]⟩]) := by decide
/-- V-D27. -/
theorem test_discard_pending_candidate :
    after .discard (at_ Cfg.default [0xAA#8, 0x0B#8]) = some ([], [⟨none, []⟩]) := by decide

/-- R58. -/
theorem test_written_feed :
    instrText (.feed [0xAA#8, 0x0B#8]) = ['F', 'E', 'E', 'D', ' ', '[', 'A', 'A', ' ', '0', 'B', ']'] := by decide
/-- R58, R98: the text form of the raw command, with `\n` for the newline. -/
theorem test_read_text_form :
    readLine (['E', 'N', 'C', 'O', 'D', 'E', '_', 'R', 'A', 'W', ' ', '"'] ++
      ['f', 'r', 'a', 'm', 'e', '_', 'e', 'n', 'a', 'b', 'l', 'e', '\\', 'n', '"']) = some (.encodeRaw frameEnable) := by
  decide
/-- R58 gives the text form to ASCII text alone; another character writes no operation (the model's choice, log 16). -/
theorem test_read_text_not_ascii :
    quotedBytes ['a', Char.ofNat 127] = some [0x61#8, 0x7F#8] ∧ quotedBytes ['a', Char.ofNat 128] = none ∧
      readTokens [.word (mnemonicText (.encodeRaw [])), .quoted [Char.ofNat 0xE9]] = none := by decide
/-- R58: `-> Err(FrameCorruption, CHECKSUM)` and `-> Frame(0B, [])`. -/
theorem test_written_output :
    Output.text ⟨none, [.err (.frameCorruption .checksum), .frame 0x0B#8 []]⟩ =
      ["-> Err(FrameCorruption, CHECKSUM)".toList, "-> Frame(0B, [])".toList] := by decide
/-- P6 as the reader loop issues it: the late chunk of the cancelled session is not fed (R122). -/
theorem test_reader_loop_cancel :
    readerOps true [.chunk [0xAA#8], .cancel, .chunk [0x0B#8], .sessionCreated, .chunk frameF] =
      [.feed [0xAA#8], .discard, .discard, .feed frameF] := by decide

/-! ## Witnesses: a state and operands for the hypotheses of each statement -/

theorem witness_UnlistedOpHasNoStep :
    opFn 0x10#8 = 0 ∧ (0x23#8 : Byte) ∉ [0x01#8, 0x11#8, 0x12#8, 0x21#8, 0x22#8] ∧ (State.reset.withFetchWord 8 0x23).cfg.wf = true ∧
      (State.reset.withFetchWord 8 0x23).pending = ⟨0x23#8, []⟩ :: [] := by decide

theorem witness_StepRunsDecodedOperation :
    (State.reset.withFetchWord 8 0x22).cfg.wf = true ∧ (State.reset.withFetchWord 8 0x22).pending = ⟨0x22#8, []⟩ :: [] ∧
      decode ⟨0x22#8, []⟩ = .ok .discard := ⟨by decide, rfl, rfl⟩

theorem witness_IdleStepHoldsState : State.reset.cfg.wf = true ∧ State.reset.pending = [] := by decide

theorem witness_CfgOutOfRangeIsRefused :
    (5 + s16.maxLen ≤ s16.cap ∧ s16.maxLen ≤ 255 ∧ s16.ovfKeep ≤ s16.cap ∧ 2 * s16.nohdrKeep ≤ s16.cap) ∧
      (at_ { s16 with maxLen := 12 } []).cfg = { s16 with maxLen := 12 } ∧
      ¬ 5 + ({ s16 with maxLen := 12 } : Cfg).maxLen ≤ ({ s16 with maxLen := 12 } : Cfg).cap := by decide

theorem witness_InputRunsInIssueOrder : (at_ s16 frameG).cfg.wf = true := by decide

theorem witness_StepDeliversOneOutput :
    (nextState (step State.reset)).isSome ∧ (nextState (step (State.reset.withFetchWord 8 0x11))).isSome := by decide

theorem witness_ChecksumFormsAgree :
    (0x0B#8 :: 0x02#8 :: [0x07#8, 0x09#8]).Perm (0x09#8 :: 0x0B#8 :: [0x02#8, 0x07#8]) := by decide

theorem witness_CheckedBytesSumToZero : StartsWithFrame Cfg.default (frameG ++ [0x00#8]) 0x01#8 [0x00#8] [0x00#8] :=
  ⟨0x01#8, by decide, by decide, by decide⟩

theorem witness_OneChangedByteIsDetected :
    2 + 1 < [0x00#8].length + 3 ∧
      (0x01#8 :: 0x01#8 :: [0x00#8] ++ [checksum 0x01#8 0x01#8 [0x00#8]])[3]? ≠ some 0xFF#8 ∧
      (0x01#8 :: 0x01#8 :: [0x00#8] ++ [checksum 0x01#8 0x01#8 [0x00#8]])[0]? ≠ some 0x00#8 := by decide

theorem witness_EncodeReturnsFrameOrError :
    (List.replicate 255 0x11#8).length ≤ 255 ∧ 255 < (List.replicate 256 0x11#8).length := by
  rw [List.length_replicate, List.length_replicate]; omega

theorem witness_TooLargePayloadReachesNoTransport : 255 < (List.replicate 256 0x00#8).length := by
  rw [List.length_replicate]; omega

theorem witness_FrameLayout : (List.replicate 255 0x11#8).length ≤ 255 ∧ ([] : List Byte).length ≤ 255 := by
  rw [List.length_replicate]; decide

/-- V-E14, V-D36: `MAX_LEN = 4` and a payload of 5 bytes. -/
theorem witness_FrameBeyondMaxLenIsRejected :
    let s := at_ { Cfg.default with maxLen := 4 } [0x00#8]
    s.cfg.maxLen < (List.replicate 5 0x00#8).length ∧ (List.replicate 5 0x00#8).length ≤ 255 ∧ s.cfg.hdr ∉ s.buf ∧
      s.buf.length + (5 + (List.replicate 5 0x00#8).length) ≤ s.cfg.cap := by decide

/-- V-D30 and V-D29: 16 bytes fit in S16, 17 overflow. -/
theorem witness_FeedRunsTheLoop :
    (at_ s16 (frameF ++ [0x00#8, 0x00#8, 0x00#8])).buf.length + (List.replicate 8 0x00#8).length ≤ s16.cap ∧
      s16.cap < (at_ s16 (frameF ++ [0x00#8, 0x00#8, 0x00#8])).buf.length + (List.replicate 9 0x00#8).length := by decide

theorem witness_LoopHasOneOutcome : LoopRun s16 [0x00#8, 0xAA#8] [] [0xAA#8] :=
  .bDiscard (g := [0x00#8]) (b := []) (by decide) (by decide) (.cStop (by decide))

theorem witness_LoopTerminates :
    scanIter s16 (frameF ++ [0x00#8]) = .again [.frame 0x0B#8 []] [0x00#8] ∧
      scanIter s16 [0xAA#8, 0x0B#8, 0x00#8, 0xF5#8, 0x54#8] =
        .again [.err (.frameCorruption .tail)] [0x0B#8, 0x00#8, 0xF5#8, 0x54#8] ∧
      [0xAA#8].length + 1 ≤ 3 := by decide

theorem witness_DiscardEmptiesBuffer :
    LinkEvent.disconnect ∈ [LinkEvent.disconnect, .cancel, .sessionCreated] ∧
      LinkEvent.cancel ∈ [LinkEvent.disconnect, .cancel, .sessionCreated] ∧
      LinkEvent.sessionCreated ∈ [LinkEvent.disconnect, .cancel, .sessionCreated] := by decide

theorem witness_FeedKeepsASuffix : (nextState (exec (.feed frameG) (at_ s16 [0xAA#8]))).isSome := by decide

/-- A buffer in each phase, and one in `SEEKING_HEADER` that holds a header. -/
theorem witness_TransitionTable :
    phase s16 [0x00#8] = .seekingHeader ∧ s16.hdr ∉ [0x00#8] ∧ phase s16 [0x00#8, 0xAA#8] = .seekingHeader ∧
      s16.hdr ∈ [0x00#8, 0xAA#8] ∧ phase s16 [0xAA#8, 0x01#8] = .haveHeader ∧
      phase s16 [0xAA#8, 0x01#8, 0x0C#8] = .lengthReject ∧ phase s16 [0xAA#8, 0x01#8, 0x0B#8] = .accumulating ∧
      phase s16 frameF = .emit := by decide

/-- The three rows of `EMIT`: a wrong tail, a wrong checksum, a valid frame. -/
theorem witness_TransitionTable_emit :
    phase s16 [0xAA#8, 0x0B#8, 0x00#8, 0xF4#8, 0x54#8] = .emit ∧ (0x54#8 : Byte) ≠ s16.tl ∧
      phase s16 [0xAA#8, 0x0B#8, 0x00#8, 0xF4#8, 0x55#8] = .emit ∧ checksum 0x0B#8 0x00#8 [] ≠ 0xF4#8 ∧
      checksum 0x0B#8 0x00#8 [] = 0xF5#8 := by decide

theorem witness_OnlyValidFramesAreEmitted :
    frameF[0]? = some Cfg.default.hdr ∧ scanIter Cfg.default frameF = .again [.frame 0x0B#8 []] [] := by decide

/-- V-D30 and V-D29. -/
theorem witness_OverflowIsReportedOnceAndFirst :
    (at_ s16 (frameF ++ [0x00#8])).buf.length + (List.replicate 10 0x00#8).length ≤ s16.cap ∧
      s16.cap < (at_ s16 (frameF ++ [0x00#8])).buf.length + (List.replicate 11 0x00#8).length := by decide

theorem witness_OverflowKeepsOvfKeep :
    (at_ s16 [0xAA#8]).cfg.cap < (at_ s16 [0xAA#8]).buf.length + (List.replicate 16 0x00#8).length ∧
      (at_ s16 [0xAA#8]).cfg.ovfKeep = 0 := by decide

theorem witness_FeedLeavesQuiescentBuffer : (at_ s16 (List.replicate 20 0xAA#8)).cfg.wf = true := by decide

theorem witness_FreshBlockMeetsInvariant : s16.wf = true := by decide

/-- A step from a quiescent buffer of each kind. -/
theorem witness_StepKeepsInvariant :
    (at_ s16 [0x00#8]).inv = true ∧ (at_ s16 [0xAA#8]).inv = true ∧ (at_ s16 [0xAA#8, 0x01#8, 0x0B#8]).inv = true ∧
      (nextState (step ((at_ s16 [0xAA#8, 0x01#8, 0x0B#8]).submit (encode (.feed frameF))))).isSome := by decide

theorem witness_OperationsKeepCapacity :
    (at_ s16 (List.replicate 16 0x00#8)).cfg.wf = true ∧ (at_ s16 (List.replicate 16 0x00#8)).buf.length ≤ s16.cap ∧
      Instr.feed frameF = .feed frameF := by decide

theorem witness_ResidualIsBounded :
    (at_ s16 (List.replicate 8 0x00#8)).inv = true ∧ s16.wf = true ∧ (0x00#8 : Byte) ≠ s16.hdr := by decide

/-- S16: `RMAX = 15`, so one byte is safe from every quiescent buffer. -/
theorem witness_SmallChunkNeverOverflows :
    (at_ s16 (0xAA#8 :: 0x01#8 :: 0x0B#8 :: List.replicate 12 0x00#8)).inv = true ∧
      [0x00#8].length ≤ s16.cap - residualMax s16 := by decide

theorem witness_EmptyFeedChangesNothing :
    (at_ Cfg.default [0xAA#8, 0x0B#8]).inv = true ∧ (at_ s16 (List.replicate 8 0x00#8)).inv = true := by decide

theorem witness_EncodeThenFeedGivesTheFrame :
    let s := at_ s16 [0x00#8]
    s.cfg.wf = true ∧ s.cfg.hdr ∉ s.buf ∧ [0xAA#8, 0x55#8].length ≤ s.cfg.maxLen ∧
      s.buf.length + 5 + [0xAA#8, 0x55#8].length ≤ s.cfg.cap := by decide

/-- The longest payload, in a buffer that is then full: S16 holds a frame with 11 payload bytes. -/
theorem witness_EncodeThenFeedGivesTheFrame_full :
    (at_ s16 []).cfg.wf = true ∧ s16.hdr ∉ (at_ s16 []).buf ∧ (List.replicate 11 0xAA#8).length ≤ s16.maxLen ∧
      (at_ s16 []).buf.length + 5 + (List.replicate 11 0xAA#8).length ≤ s16.cap ∧
      Q1 Cfg.default [0x00#8] = true ∧ [0x00#8].length ≤ 255 := by decide

theorem witness_WholeWritesGiveAllFrames :
    let fs : List (Byte × List Byte) := [(0x0B#8, []), (0x01#8, [0x00#8])]
    let s := at_ s16 [0x00#8]
    s.cfg.wf = true ∧ s.cfg.hdr ∉ s.buf ∧ (∀ f ∈ fs, f.2.length ≤ s.cfg.maxLen) ∧ fs ≠ [] ∧
      s.buf.length + (fs.flatMap (fun f => frameBytes s.cfg f.1 f.2)).length ≤ s.cfg.cap := by decide

/-- P1, line 1 and 2: no overflow, and a header in the final buffer. -/
theorem witness_ChunkBoundariesDoNotMatter :
    ([[0xAA#8, 0x0B#8, 0x00#8], [0xF5#8, 0x55#8, 0xAA#8]] : List (List Byte)) ≠ [] ∧ NoOverflow [.frame 0x0B#8 []] ∧
      after (.feed [0xAA#8, 0x0B#8, 0x00#8, 0xF5#8, 0x55#8, 0xAA#8]) State.reset =
        some ([0xAA#8], [⟨none, [.frame 0x0B#8 []]⟩]) ∧ State.reset.cfg.hdr ∈ [0xAA#8] :=
  ⟨by decide, by simp [NoOverflow], by decide, by decide⟩

theorem witness_HeaderFreeGarbageIsSkipped :
    let s := at_ s16 [0x11#8]
    s.cfg.wf = true ∧ s.cfg.hdr ∉ s.buf ∧ s.cfg.hdr ∉ [0x00#8, 0x55#8] ∧ [0x00#8].length ≤ s.cfg.maxLen ∧
      s.buf.length + [0x00#8, 0x55#8].length + 5 + [0x00#8].length ≤ s.cfg.cap := by decide

/-- V-D33 (d): bit 7 of the checksum of `F` flipped, `G` behind it. -/
theorem witness_ChangedByteIsRejected :
    let s := at_ s16 []
    let body := 0x0B#8 :: 0x00#8 :: [] ++ [checksum 0x0B#8 0x00#8 []]
    s.cfg.wf = true ∧ s.cfg.hdr ∉ s.buf ∧ ([] : List Byte).length ≤ s.cfg.maxLen ∧ [0x00#8].length ≤ s.cfg.maxLen ∧
      2 < body.length ∧ 2 ≠ 1 ∧ body[2]? ≠ some 0x75#8 ∧
      s.buf.length + (5 + ([] : List Byte).length) + (5 + [0x00#8].length) ≤ s.cfg.cap ∧
      s.cfg.hdr ∉ body.set 2 0x75#8 ++ [s.cfg.tl] := by decide

/-- V-D33 (c) with `G` behind it. -/
theorem witness_ChangedTailIsRejected :
    let s := at_ s16 []
    let body := 0x0B#8 :: 0x00#8 :: [] ++ [checksum 0x0B#8 0x00#8 []]
    s.cfg.wf = true ∧ s.cfg.hdr ∉ s.buf ∧ ([] : List Byte).length ≤ s.cfg.maxLen ∧ [0x00#8].length ≤ s.cfg.maxLen ∧
      0x54#8 ≠ s.cfg.tl ∧ s.buf.length + (5 + ([] : List Byte).length) + (5 + [0x00#8].length) ≤ s.cfg.cap ∧
      s.cfg.hdr ∉ body ++ [0x54#8] := by decide

/-- V-D14, and one byte short of the candidate's end. -/
theorem witness_PendingCandidateHoldsTheStream :
    let s := at_ s16 [0xAA#8, 0x01#8, 0x05#8]
    s.cfg.wf = true ∧ s.buf = s.cfg.hdr :: 0x01#8 :: 0x05#8 :: [] ∧ (0x05#8 : Byte).toNat ≤ s.cfg.maxLen ∧
      s.buf.length + frameG.length < 5 + (0x05#8 : Byte).toNat := by decide

/-- V-D15: garbage around `F` that forms a frame. -/
theorem witness_AnyZeroSumRunIsEmitted :
    let s := at_ s16 []
    s.cfg.hdr ∉ s.buf ∧ (0x05#8 : Byte).toNat ≤ s.cfg.maxLen ∧ frameF.length = (0x05#8 : Byte).toNat ∧
      ((0x01#8 :: 0x05#8 :: frameF ++ [0xFB#8]).map BitVec.toNat).sum % 256 = 0 ∧
      s.buf.length + 5 + frameF.length ≤ s.cfg.cap := by decide

/-- V-D22 and V-D26: kept whole at half the capacity, trimmed past it. -/
theorem witness_UnheardPeerGivesNoFrame :
    let s := at_ { s16 with hdr := 0x7E#8, tl := 0x7F#8 } [0x11#8, 0x11#8, 0x11#8]
    s.cfg.hdr ∉ s.buf ∧ s.cfg.hdr ∉ frameF ∧ s.cfg.hdr ∉ frameG ∧ s.buf.length + frameG.length ≤ s.cfg.cap ∧
      ¬ s.cfg.cap < 2 * (s.buf.length + frameF.length) ∧ s.cfg.cap < 2 * (s.buf.length + frameG.length) := by decide

/-- A peer with the header of S16 and the tail 0x7F: two of its frames, no header among their other bytes. -/
theorem witness_MismatchedSentinelsGiveNoFrame :
    let peer : Cfg := { s16 with tl := 0x7F#8 }
    let s := at_ s16 [0x00#8]
    let fs : List (Byte × List Byte) := [(0x0B#8, []), (0x01#8, [0x55#8])]
    s.cfg.wf = true ∧ peer.hdr = s.cfg.hdr ∧ peer.tl ≠ s.cfg.tl ∧ s.cfg.hdr ∉ s.buf ∧
      (∀ f ∈ fs, f.2.length ≤ s.cfg.maxLen ∧ s.cfg.hdr ∉ (frameBytes peer f.1 f.2).drop 1) ∧
      s.buf.length + (fs.flatMap (fun f => frameBytes peer f.1 f.2)).length ≤ s.cfg.cap := by decide

/-- A peer with another header alone. -/
theorem witness_MismatchedSentinelsGiveNoFrame_header :
    ({ s16 with hdr := 0x7E#8 } : Cfg).hdr ≠ s16.hdr ∧ [0x00#8].length ≤ 255 := by decide

theorem witness_CallerOperationsIgnoreBuffer :
    (Instr.checksum 0#8 0#8 []).agent = .caller ∧ (Instr.encode 0#8 []).agent = .caller ∧
      (Instr.encodeRaw []).agent = .caller := by decide

theorem witness_EncoderAndDecoderCommute :
    (Instr.encode 0#8 []).agent = .caller ∧ (Instr.feed frameF).agent = .readerLoop ∧ Instr.discard.agent = .readerLoop := by
  decide

/-- A `FEED` that reports both kinds of error, and an `ENCODE` that returns its own. -/
theorem witness_ErrorsOfEachOperation :
    after (.feed (List.replicate 12 0x00#8 ++ [0xAA#8, 0x0B#8, 0x00#8, 0xF5#8, 0x54#8])) (at_ { s16 with ovfKeep := 5 } []) =
        some ([0x0B#8, 0x00#8, 0xF5#8, 0x54#8], [⟨none, [.err (.bufferOverflow 17), .err (.frameCorruption .tail)]⟩]) ∧
      exec (.encode 0x00#8 (List.replicate 256 0x00#8)) State.reset =
        .next (State.reset.deliver (some (.error (.encodeTooLarge 256))) []) :=
  ⟨by decide, test_encode_256⟩

theorem witness_ReaderFeedsNothingAfterTheEnd :
    LinkEvent.cancel ∈ [LinkEvent.endOfStream, .transportError, .disconnect, .cancel] ∧
      LinkEvent.endOfStream ∈ [LinkEvent.endOfStream, .transportError, .disconnect, .cancel] := by decide

/-- P5: the raw command sent first, and a session without it. -/
theorem witness_SessionIgnoresRawEnable :
    sessionOps (some 0) [.encode 0x0B#8 []] = [.discard, .encodeRaw frameEnable, .encode 0x0B#8 []] ∧
      sessionOps none [.encode 0x0B#8 []] = [.discard, .encode 0x0B#8 []] := by decide

theorem witness_PseudoOperationsExpand :
    (List.replicate 255 0x11#8).length ≤ 255 ∧ 255 < (List.replicate 256 0x11#8).length := by
  rw [List.length_replicate, List.length_replicate]; omega

/-- The transaction-level machine as its own implementation, from a state that meets the invariant. -/
theorem witness_ConformingProtocolKeepsInvariant :
    PortProtocol.Conforms (σ := State) ⟨fun i s => (nextState (exec i s)).getD s, id⟩ ∧
      (at_ s16 [0xAA#8, 0x01#8, 0x0B#8]).inv = true := by
  refine ⟨fun i s => ?_, by decide⟩
  cases i with
  | encode c p =>
    by_cases h : 255 < p.length
    · simp only [id, exec_encode_tooLarge s h, nextState, Option.getD_some]
    · simp only [id, exec_encode_frame s (show p.length ≤ 255 by omega), nextState, Option.getD_some]
  | checksum c L p => rfl
  | encodeRaw r => rfl
  | feed chunk => rfl
  | discard => rfl

end Sys2Proof.Tests
end

/-! # Proofs of the family 00_scope: configurations, the operation input, conforming implementations -/

namespace Sys2Proof.Machine

/-! ## What an operation does, whatever it is -/

/-- 60_exceptions.md R103: no operation faults or refuses. -/
theorem exec_total (i : Instr) (s : State) : ∃ t, exec i s = .next t := by
  cases i with
  | encode c p =>
    by_cases hp : p.length ≤ 255
    · exact ⟨_, exec_encode_frame s hp⟩
    · exact ⟨_, exec_encode_tooLarge s (by omega)⟩
  | checksum c L p => exact ⟨_, exec_checksum c L p s⟩
  | encodeRaw r => exact ⟨_, exec_encodeRaw r s⟩
  | feed chunk => exact ⟨_, exec_feed chunk s⟩
  | discard => exact ⟨_, exec_discard s⟩

theorem exec_cfg {i : Instr} {s t : State} (h : exec i s = .next t) : t.cfg = s.cfg := by
  obtain ⟨b, r, tr, rfl⟩ := exec_cases h
  rfl

theorem exec_delivered_length {i : Instr} {s t : State} (h : exec i s = .next t) :
    t.delivered.length = s.delivered.length + 1 := by
  obtain ⟨b, r, tr, rfl⟩ := exec_cases h
  simp

/-- What an operation leaves in the buffer: only `FEED` and `DISCARD` write it (10_state.md R18 to R20). -/
theorem exec_buf_cases {i : Instr} {s t : State} (h : exec i s = .next t) :
    i.agent = .caller ∧ t.buf = s.buf ∨
    (∃ chunk, i = .feed chunk ∧ t.buf = (feedBuffer s.cfg s.buf chunk).1) ∨
    i = .discard ∧ t.buf = [] := by
  cases i with
  | encode c p =>
    by_cases hp : p.length ≤ 255
    · rw [exec_encode_frame s hp] at h; cases h; exact .inl ⟨rfl, rfl⟩
    · rw [exec_encode_tooLarge s (by omega)] at h; cases h; exact .inl ⟨rfl, rfl⟩
  | checksum c L p => cases h; exact .inl ⟨rfl, rfl⟩
  | encodeRaw r => cases h; exact .inl ⟨rfl, rfl⟩
  | feed chunk => cases h; exact .inr (.inl ⟨chunk, rfl, rfl⟩)
  | discard => cases h; exact .inr (.inr ⟨rfl, rfl⟩)

/-- No operation reads or writes the operation input. -/
theorem exec_setPending {i : Instr} {s t : State} (ds : List Descriptor) (h : exec i s = .next t) :
    exec i (s.setPending ds) = .next (t.setPending ds) := by
  cases i with
  | encode c p =>
    by_cases hp : p.length ≤ 255
    · rw [exec_encode_frame s hp] at h; cases h; exact exec_encode_frame _ hp
    · have hp' : 255 < p.length := by omega
      rw [exec_encode_tooLarge s hp'] at h; cases h; exact exec_encode_tooLarge _ hp'
  | checksum c L p => cases h; rfl
  | encodeRaw r => cases h; rfl
  | feed chunk => cases h; rfl
  | discard => cases h; rfl

/-! ## The operation input -/

/-- 30_encoding.md R53, R54: the decoder reads the encoder's descriptor back. -/
@[simp] theorem decode_encode (i : Instr) : decode (encode i) = .ok i := by
  cases i <;> rfl

theorem step_setPending_encode {s : State} (hc : s.cfg.wf = true) (i : Instr) (ds : List Descriptor) :
    step (s.setPending (encode i :: ds)) = exec i (s.setPending ds) := by
  have hf : (s.setPending (encode i :: ds)).fetch = .run i (s.setPending ds) :=
    State.fetch_run hc rfl (decode_encode i)
  rw [step, hf]

theorem run_succ_of_step {s t : State} (h : step s = .next t) (k : Nat) :
    core.run (k + 1) s = core.run k t := by
  have h' : core.step s = .next t := h
  simp only [Host.Core.run, h']

theorem execAll_cons_of_exec {i : Instr} {s t : State} (h : exec i s = .next t) (is : List Instr) :
    execAll (i :: is) s = execAll is t := by
  rw [execAll, h]

/-- One step runs the first descriptor, and the rest of the input waits unchanged for the steps after it. -/
theorem run_setPending_eq_execAll (ops : List Instr) (rest : List Descriptor) {s : State} (hc : s.cfg.wf = true) :
    core.run ops.length (s.setPending (ops.map encode ++ rest)) = execAll ops (s.setPending rest) := by
  induction ops generalizing s with
  | nil => rfl
  | cons i is ih =>
    obtain ⟨t, ht⟩ := exec_total i s
    have hstep : step (s.setPending (encode i :: (is.map encode ++ rest))) =
        .next (t.setPending (is.map encode ++ rest)) := by
      rw [step_setPending_encode hc, exec_setPending _ ht]
    have htc : t.cfg.wf = true := by rw [exec_cfg ht, hc]
    have hexec : execAll (i :: is) (s.setPending rest) = execAll is (t.setPending rest) :=
      execAll_cons_of_exec (exec_setPending rest ht) is
    exact (run_succ_of_step hstep _).trans ((ih htc).trans hexec.symm)

/-- Settles O7, by induction on the issued operations. -/
theorem inputRunsInIssueOrder : Obligations.InputRunsInIssueOrder :=
  fun _ ops rest hc => run_setPending_eq_execAll ops rest hc

/-! ## Configurations out of range -/

theorem State.instantiate_of_wf {cfg : Cfg} (h : cfg.wf = true) :
    State.instantiate cfg = .next (State.init cfg) := if_pos h

theorem State.instantiate_of_not_wf {cfg : Cfg} (h : ¬ cfg.wf = true) :
    State.instantiate cfg = .refused .cfgOutOfRange := if_neg h

theorem step_of_not_wf {s : State} (h : ¬ s.cfg.wf = true) : step s = .refused .cfgOutOfRange := by
  rw [step, State.fetch_cfg (Bool.not_eq_true _ ▸ h)]

/-- Settles O6: the ranges it writes out are those `Cfg.wf` tests, on which making a block and fetching turn. -/
theorem cfgOutOfRangeIsRefused : Obligations.CfgOutOfRangeIsRefused := by
  intro cfg
  rw [← Cfg.wf_iff]
  refine ⟨State.instantiate_of_wf, fun h => ⟨State.instantiate_of_not_wf h, ?_⟩⟩
  rintro s rfl
  exact step_of_not_wf h

/-! ## The loop of 41_stream_decoder.md R69 follows its labels -/

section Loop

variable {cfg : Cfg}

/-- `[b-discard]` also of an empty run, which discards nothing. -/
theorem LoopRun.discard {g b b' : Memory} {tr : List Event} (hg : cfg.hdr ∉ g)
    (h : LoopRun cfg (cfg.hdr :: b) tr b') : LoopRun cfg (g ++ cfg.hdr :: b) tr b' := by
  cases g with
  | nil => exact h
  | cons x g => exact .bDiscard hg (List.cons_ne_nil x g) h

theorem LoopRun.noHeader {b : Memory} (h : cfg.hdr ∉ b) : LoopRun cfg b [] (trim cfg b) := by
  by_cases hb : cfg.cap < 2 * b.length
  · rw [trim, if_pos hb]; exact .aTrim h hb
  · rw [trim, if_neg hb]; exact .aStop h (by omega)

/-- A buffer that reaches the tail of a frame of `n` payload bytes is payload, checksum, tail and what follows. -/
theorem candidate_split {n : Nat} {b : Memory} (h : n + 2 ≤ b.length) :
    ∃ pl cs tl rest, b = pl ++ cs :: tl :: rest ∧ pl.length = n := by
  obtain ⟨cs, tl, rest, hr⟩ : ∃ cs tl rest, b.drop n = cs :: tl :: rest := by
    match hd : b.drop n with
    | cs :: tl :: rest => exact ⟨cs, tl, rest, rfl⟩
    | [] | [_] =>
      have hlen := congrArg List.length hd
      simp only [List.length_drop, List.length_nil, List.length_cons] at hlen
      omega
  exact ⟨b.take n, cs, tl, rest, by rw [← hr, List.take_append_drop], List.length_take_of_le (by omega)⟩

/-- An iteration from `b` takes labels of R69: it ends the loop, or it goes on with a shorter buffer, and each run of the
loop from there is a run from `b` behind the iteration's event. -/
def IterFollowsLabels (cfg : Cfg) (b : Memory) : Prop :=
  (∃ b', scanIter cfg b = .exit b' ∧ LoopRun cfg b [] b') ∨
  ∃ tr b₁, scanIter cfg b = .again tr b₁ ∧ b₁.length < b.length ∧
    ∀ tr' b', LoopRun cfg b₁ tr' b' → LoopRun cfg b (tr ++ tr') b'

/-- The three tests on a whole candidate: `[g-drop]`, `[h-drop]`, `[i-emit]`. -/
theorem iterFollowsLabels_whole {c L cs tl : Byte} {pl rest : Memory} (hL : L.toNat ≤ cfg.maxLen)
    (hp : pl.length = L.toNat) : IterFollowsLabels cfg (cfg.hdr :: c :: L :: pl ++ cs :: tl :: rest) := by
  have hg : cfg.hdr ∉ ([] : Memory) := List.not_mem_nil
  by_cases ht : tl = cfg.tl
  · subst ht
    by_cases hc : checksum c L pl = cs
    · subst hc
      refine .inr ⟨_, _, scanIter_valid hg hL hp, ?_, fun _ _ h => .iEmit hL hp h⟩
      simp only [List.length_append, List.length_cons]
      omega
    · exact .inr ⟨_, _, scanIter_badChecksum hg hL hp hc, by simp, fun _ _ h => .hDrop hL hp hc h⟩
  · exact .inr ⟨_, _, scanIter_badTail hg hL hp ht, by simp, fun _ _ h => .gDrop hL hp ht h⟩

theorem iterFollowsLabels_header (b : Memory) : IterFollowsLabels cfg (cfg.hdr :: b) := by
  have hg : cfg.hdr ∉ ([] : Memory) := List.not_mem_nil
  match b with
  | [] => exact .inl ⟨_, scanIter_short (b := []) hg (by simp), .cStop (by simp)⟩
  | [x] => exact .inl ⟨_, scanIter_short (b := [x]) hg (by simp), .cStop (by simp)⟩
  | c :: L :: b =>
    by_cases hL : L.toNat ≤ cfg.maxLen
    · by_cases hb : b.length < L.toNat + 2
      · exact .inl ⟨_, scanIter_incomplete hg hL hb, .eStop hL hb⟩
      · obtain ⟨pl, cs, tl, rest, rfl, hp⟩ := candidate_split (not_lt.1 hb)
        exact iterFollowsLabels_whole hL hp
    · have hL' : cfg.maxLen < L.toNat := by omega
      exact .inr ⟨_, _, scanIter_badLength hg hL', by simp, fun _ _ h => .dDrop hL' h⟩

theorem iterFollowsLabels (b : Memory) : IterFollowsLabels cfg b := by
  by_cases hb : cfg.hdr ∈ b
  · obtain ⟨g, b, rfl, hg⟩ := mem_split_first hb
    have hi : scanIter cfg (g ++ cfg.hdr :: b) = scanIter cfg (cfg.hdr :: b) := by
      rw [scanIter_discard hg, scanIter_header]
    obtain ⟨b', he, hr⟩ | ⟨tr, b₁, he, hlt, hr⟩ := iterFollowsLabels_header (cfg := cfg) b
    · exact .inl ⟨b', hi.trans he, hr.discard hg⟩
    · refine .inr ⟨tr, b₁, hi.trans he, ?_, fun _ _ h => (hr _ _ h).discard hg⟩
      rw [List.length_append]
      omega
  · exact .inl ⟨_, scanIter_noHeader hb, .noHeader hb⟩

/-- With more iterations than the buffer has bytes (R83) the loop is a run of R69. -/
theorem loopRun_scanLoop {n : Nat} {b : Memory} (h : b.length < n) :
    LoopRun cfg b (scanLoop cfg n b).2 (scanLoop cfg n b).1 := by
  induction n generalizing b with
  | zero => omega
  | succ n ih =>
    obtain ⟨b', he, hr⟩ | ⟨tr, b₁, he, hlt, hr⟩ := iterFollowsLabels (cfg := cfg) b
    · rw [scanLoop_exit he]; exact hr
    · rw [scanLoop_again he]; exact hr _ _ (ih (by omega))

theorem loopRun_scanAll (b : Memory) : LoopRun cfg b (scanAll cfg b).2 (scanAll cfg b).1 :=
  loopRun_scanLoop (Nat.lt_succ_self _)

/-! ## Quiescent buffers (10_state.md R23, R24) -/

theorem Q1_iff {b : Memory} : Q1 cfg b = true ↔ cfg.hdr ∉ b ∧ 2 * b.length ≤ cfg.cap := by
  simp [Q1, has_eq_false_iff]

theorem Q2_iff {b : Memory} : Q2 cfg b = true ↔ b.head? = some cfg.hdr ∧ b.length < 3 := by
  simp [Q2]

theorem Q3_iff {b : Memory} : Q3 cfg b = true ↔
    b.head? = some cfg.hdr ∧ ∃ L, b[2]? = some L ∧ L.toNat ≤ cfg.maxLen ∧ b.length < 5 + L.toNat := by
  cases h : b[2]? <;> simp [Q3, h]

theorem quiescent_iff {b : Memory} :
    quiescent cfg b = true ↔ Q1 cfg b = true ∨ Q2 cfg b = true ∨ Q3 cfg b = true := by
  simp [quiescent, or_assoc]

theorem State.inv_iff {s : State} : s.inv = true ↔ s.cfg.wf = true ∧ quiescent s.cfg s.buf = true := by
  simp [State.inv]

theorem quiescent_nil : quiescent cfg [] = true := quiescent_iff.2 (.inl (Q1_iff.2 (by simp)))

/-- The trim keeps at most half the capacity, since `2 * NOHDR_KEEP ≤ CAP` (R72, 00_scope.md R5). -/
theorem Q1_trim (hw : cfg.wf = true) {b : Memory} (h : cfg.hdr ∉ b) : Q1 cfg (trim cfg b) = true := by
  obtain ⟨-, -, -, hk⟩ := Cfg.wf_iff.1 hw
  rw [Q1_iff, trim]
  split
  · have hl := lastn_length cfg.nohdrKeep b
    exact ⟨fun hm => h ((lastn_suffix _ _).subset hm), by omega⟩
  · exact ⟨h, by omega⟩

/-- The loop stops in a quiescent buffer, whatever buffer it starts from: its three stops are (Q1), (Q2) and (Q3). -/
theorem LoopRun.quiescent_end (hw : cfg.wf = true) {b b' : Memory} {tr : List Event} (h : LoopRun cfg b tr b') :
    quiescent cfg b' = true := by
  induction h with
  | aTrim hn hb =>
    have hq := Q1_trim hw hn
    rw [trim, if_pos hb] at hq
    exact quiescent_iff.2 (.inl hq)
  | aStop hn hb => exact quiescent_iff.2 (.inl (Q1_iff.2 ⟨hn, hb⟩))
  | cStop hb => exact quiescent_iff.2 (.inr (.inl (Q2_iff.2 ⟨rfl, by simp only [List.length_cons]; omega⟩)))
  | eStop hL hb =>
    exact quiescent_iff.2 (.inr (.inr (Q3_iff.2 ⟨rfl, _, rfl, hL, by simp only [List.length_cons]; omega⟩)))
  | bDiscard _ _ _ ih => exact ih
  | dDrop _ _ ih => exact ih
  | gDrop _ _ _ _ ih => exact ih
  | hDrop _ _ _ _ ih => exact ih
  | iEmit _ _ _ ih => exact ih

theorem feedBuffer_quiescent (hw : cfg.wf = true) (b chunk : Memory) :
    quiescent cfg (feedBuffer cfg b chunk).1 = true := by
  by_cases h : b.length + chunk.length ≤ cfg.cap
  · rw [feedBuffer_fits h]; exact (loopRun_scanAll _).quiescent_end hw
  · rw [feedBuffer_overflows (not_le.1 h)]; exact (loopRun_scanAll _).quiescent_end hw

theorem quiescent_length_le_residualMax {b : Memory} (h : quiescent cfg b = true) :
    b.length ≤ residualMax cfg := by
  rw [residualMax]
  obtain hq | hq | hq := quiescent_iff.1 h
  · obtain ⟨-, hb⟩ := Q1_iff.1 hq
    omega
  · obtain ⟨-, hb⟩ := Q2_iff.1 hq
    omega
  · obtain ⟨-, L, -, hL, hb⟩ := Q3_iff.1 hq
    omega

theorem residualMax_le_cap (hw : cfg.wf = true) : residualMax cfg ≤ cfg.cap := by
  obtain ⟨-, hc, -, -⟩ := Cfg.wf_iff.1 hw
  rw [residualMax]
  omega

end Loop

theorem State.inv_length_le_residualMax {s : State} (h : s.inv = true) : s.buf.length ≤ residualMax s.cfg :=
  quiescent_length_le_residualMax (State.inv_iff.1 h).2

theorem State.inv_length_le_cap {s : State} (h : s.inv = true) : s.buf.length ≤ s.cfg.cap :=
  (State.inv_length_le_residualMax h).trans (residualMax_le_cap (State.inv_iff.1 h).1)

/-- 10_state.md R23: a caller's operation leaves the buffer, `FEED` ends the loop and `DISCARD` empties it. -/
theorem exec_keeps_inv {i : Instr} {s t : State} (hs : s.inv = true) (h : exec i s = .next t) : t.inv = true := by
  obtain ⟨hw, hq⟩ := State.inv_iff.1 hs
  rw [State.inv_iff, exec_cfg h]
  refine ⟨hw, ?_⟩
  obtain ⟨-, hb⟩ | ⟨chunk, -, hb⟩ | ⟨-, hb⟩ := exec_buf_cases h <;> rw [hb]
  · exact hq
  · exact feedBuffer_quiescent hw _ _
  · exact quiescent_nil

/-! ## Conforming implementations (00_scope.md R8; log 12) -/

section Conformance

variable {σ : Type} {P : PortProtocol σ}

/-- The cycle-level state after an implementation has carried out operations one after the other. -/
abbrev PortProtocol.performAll (P : PortProtocol σ) (ops : List Instr) (c : σ) : σ :=
  ops.foldl (fun x i => P.perform i x) c

/-- At operation boundaries a conforming implementation has run the operations as `execAll` does. -/
theorem PortProtocol.Conforms.execAll_eq (hP : P.Conforms) (ops : List Instr) (c : σ) :
    execAll ops (P.view c) = .next (P.view (P.performAll ops c)) := by
  induction ops generalizing c with
  | nil => rfl
  | cons i is ih => rw [execAll_cons_of_exec (hP i c), ih (P.perform i c)]; rfl

/-- 41_stream_decoder.md R81 for a conforming implementation. -/
theorem PortProtocol.Conforms.buf_perform_discard (hP : P.Conforms) (c : σ) :
    (P.view (P.perform .discard c)).buf = [] := by
  have h := hP .discard c
  rw [exec_discard, Host.Outcome.next.injEq] at h
  rw [← h, State.deliver_buf, State.setBuf_buf]

end Conformance

/-- Everything a run of operations keeps, and how many outputs it adds. -/
theorem execAll_keeps_inv {ops : List Instr} {s t : State} (hs : s.inv = true) (h : execAll ops s = .next t) :
    t.inv = true ∧ t.cfg = s.cfg ∧ t.delivered.length = s.delivered.length + ops.length := by
  induction ops generalizing s with
  | nil => cases h; exact ⟨hs, rfl, rfl⟩
  | cons i is ih =>
    obtain ⟨u, hu⟩ := exec_total i s
    rw [execAll_cons_of_exec hu] at h
    obtain ⟨hinv, hcfg, hlen⟩ := ih (exec_keeps_inv hs hu) h
    refine ⟨hinv, hcfg.trans (exec_cfg hu), ?_⟩
    rw [hlen, exec_delivered_length hu, List.length_cons]
    omega

/-- Settles O57: the implementation runs the operations as `execAll` does, and that keeps the invariant. -/
theorem conformingProtocolKeepsInvariant : Obligations.ConformingProtocolKeepsInvariant := by
  intro σ P hP ops c hc
  obtain ⟨hinv, hcfg, hlen⟩ := execAll_keeps_inv hc (hP.execAll_eq ops c)
  have hcap := State.inv_length_le_cap hinv
  have hres := State.inv_length_le_residualMax hinv
  rw [hcfg] at hcap hres
  exact ⟨hinv, hcap, hres, hcfg, hlen, hP.buf_perform_discard _⟩

end Sys2Proof.Machine

/-! # Proofs of the family 10_state: the phase, the quiescent invariant, what steps and operations change -/

namespace Sys2Proof.Machine

/-! ## Steps (10_state.md R23, R27) -/

/-- Settles O33: an idle step holds the state, and every other step is an operation, which keeps the invariant. -/
theorem stepKeepsInvariant : Obligations.StepKeepsInvariant := by
  intro s t hs h
  obtain ⟨-, ⟨-, rfl⟩ | ⟨d, ds, i, -, -, he⟩⟩ := step_cases h
  · exact hs
  · have hs' : (s.setPending ds).inv = true := hs
    exact exec_keeps_inv hs' he

/-- Settles O9: a step that is not idle takes the first descriptor and runs an operation, which delivers one output. -/
theorem stepDeliversOneOutput : Obligations.StepDeliversOneOutput := by
  intro s t h
  obtain ⟨-, ⟨hp, rfl⟩ | ⟨d, ds, i, hp, -, he⟩⟩ := step_cases h
  · exact ⟨rfl, .inl ⟨hp, rfl⟩⟩
  · obtain ⟨b, r, tr, rfl⟩ := exec_cases he
    exact ⟨rfl, .inr ⟨d, ⟨r, tr⟩, hp, rfl⟩⟩

/-! ## The phase (10_state.md R22) -/

section ResyncPhase

variable {cfg : Cfg} {b : Memory}

theorem phase_of_head_ne (h : b[0]? ≠ some cfg.hdr) : phase cfg b = .seekingHeader := by
  rw [← List.head?_eq_getElem?] at h
  exact if_neg h

theorem phase_of_short (h0 : b[0]? = some cfg.hdr) (h : b.length < 3) : phase cfg b = .haveHeader := by
  rw [← List.head?_eq_getElem?] at h0
  rw [phase, if_pos h0, dif_neg (not_le.2 h)]

/-- With a header and a length byte, the declared length decides the phase. -/
theorem phase_of_declaredLength {L : Byte} (h0 : b[0]? = some cfg.hdr) (hL : b[2]? = some L) :
    phase cfg b = if cfg.maxLen < L.toNat then .lengthReject
      else if b.length < 5 + L.toNat then .accumulating else .emit := by
  rw [← List.head?_eq_getElem?] at h0
  obtain ⟨hlt, rfl⟩ := List.getElem?_eq_some_iff.1 hL
  have h3 : 3 ≤ b.length := hlt
  rw [phase, if_pos h0, dif_pos h3]
  rfl

/-- The buffers R22 tells apart before it looks at the declared length. -/
theorem header_cases (cfg : Cfg) (b : Memory) :
    b[0]? ≠ some cfg.hdr ∨ b[0]? = some cfg.hdr ∧ b.length < 3 ∨
      b[0]? = some cfg.hdr ∧ 3 ≤ b.length ∧ ∃ L, b[2]? = some L := by
  by_cases h0 : b[0]? = some cfg.hdr
  · by_cases h3 : 3 ≤ b.length
    · exact .inr (.inr ⟨h0, h3, b[2], List.getElem?_eq_getElem h3⟩)
    · exact .inr (.inl ⟨h0, not_le.1 h3⟩)
  · exact .inl h0

end ResyncPhase

/-- Settles O25: the phase is computed for each kind of buffer, and of the five conditions that kind meets one. -/
theorem phaseFollowsTable : Obligations.PhaseFollowsTable := by
  intro cfg b
  have hne : b[0]? = some cfg.hdr → b ≠ [] := by
    rintro h rfl
    simp at h
  obtain h0 | ⟨h0, h3⟩ | ⟨h0, h3, L, hL⟩ := header_cases cfg b
  · simp [phase_of_head_ne h0, h0]
  · simp [phase_of_short h0 h3, h0, h3, hne h0]
  · rw [phase_of_declaredLength h0 hL]
    split_ifs with hmax hlen
    · simp [h0, h3, hL, hne h0, hmax]
    · simp [h0, hL, hne h0, not_lt.1 hmax, hlen, h3]
    · simp [h0, hL, hne h0, not_lt.1 hmax, hlen, not_lt.1 hlen, h3]

/-! ## Quiescent buffers (10_state.md R23, R24) -/

section QuiescentPhase

variable {cfg : Cfg} {b : Memory}

theorem Q1_phase (h : Q1 cfg b = true) : phase cfg b = .seekingHeader :=
  phase_of_head_ne fun h0 => (Q1_iff.1 h).1 (List.mem_of_getElem? h0)

theorem Q2_iff_phase : Q2 cfg b = true ↔ phase cfg b = .haveHeader := by
  obtain ⟨-, hhave, -, -, -⟩ := phaseFollowsTable cfg b
  rw [Q2_iff, hhave, List.head?_eq_getElem?]

theorem Q3_iff_phase : Q3 cfg b = true ↔ phase cfg b = .accumulating := by
  obtain ⟨-, -, -, hacc, -⟩ := phaseFollowsTable cfg b
  rw [Q3_iff, hacc, List.head?_eq_getElem?]
  refine and_congr_right fun _ => ⟨fun ⟨L, hL, h⟩ => ⟨?_, L, hL, h⟩, And.right⟩
  exact (List.getElem?_eq_some_iff.1 hL).1

/-- A condition that forces one phase fails in every other. -/
theorem not_of_phase_ne {Q : Bool} {p : Phase} (hQ : Q = true → phase cfg b = p) (hp : phase cfg b ≠ p) :
    Q = false :=
  Bool.eq_false_of_not_eq_true fun h => hp (hQ h)

theorem quiescent_exactly_one (h : quiescent cfg b = true) :
    Q1 cfg b = true ∧ Q2 cfg b = false ∧ Q3 cfg b = false ∧ phase cfg b = .seekingHeader ∨
    Q1 cfg b = false ∧ Q2 cfg b = true ∧ Q3 cfg b = false ∧ phase cfg b = .haveHeader ∨
    Q1 cfg b = false ∧ Q2 cfg b = false ∧ Q3 cfg b = true ∧ phase cfg b = .accumulating := by
  have not1 := not_of_phase_ne (Q1_phase (cfg := cfg) (b := b))
  have not2 := not_of_phase_ne (Q2_iff_phase (cfg := cfg) (b := b)).1
  have not3 := not_of_phase_ne (Q3_iff_phase (cfg := cfg) (b := b)).1
  obtain hq | hq | hq := quiescent_iff.1 h
  · have hp := Q1_phase hq
    exact .inl ⟨hq, not2 (by simp [hp]), not3 (by simp [hp]), hp⟩
  · have hp := Q2_iff_phase.1 hq
    exact .inr (.inl ⟨not1 (by simp [hp]), hq, not3 (by simp [hp]), hp⟩)
  · have hp := Q3_iff_phase.1 hq
    exact .inr (.inr ⟨not1 (by simp [hp]), not2 (by simp [hp]), hq, hp⟩)

theorem scanAll_noHeader (h : cfg.hdr ∉ b) : scanAll cfg b = (trim cfg b, []) :=
  scanLoop_exit (scanIter_noHeader h)

/-- The loop leaves a buffer that meets (Q1) as it is. -/
theorem scanAll_of_Q1 (h : Q1 cfg b = true) : scanAll cfg b = (b, []) := by
  obtain ⟨hn, hb⟩ := Q1_iff.1 h
  rw [scanAll_noHeader hn, trim, if_neg (not_lt.2 hb)]

/-- A header-free run of half the capacity meets (Q1), so the residual bound is reached (R24). -/
theorem Q1_replicate_half {x : Byte} (hx : x ≠ cfg.hdr) : Q1 cfg (List.replicate (cfg.cap / 2) x) = true := by
  refine Q1_iff.2 ⟨fun hm => hx (List.eq_of_mem_replicate hm).symm, ?_⟩
  rw [List.length_replicate]
  omega

theorem exec_feed_of_Q1 {chunk : List Byte} (h : Q1 cfg chunk = true) :
    exec (.feed chunk) (State.init cfg) = .next ⟨cfg, chunk, [], [⟨none, []⟩]⟩ := by
  have hfit : ([] : Memory).length + chunk.length ≤ cfg.cap := by
    obtain ⟨-, hb⟩ := Q1_iff.1 h
    rw [List.length_nil]
    omega
  have hfeed : feedBuffer cfg [] chunk = (chunk, []) := by
    rw [feedBuffer_fits hfit, List.nil_append, scanAll_of_Q1 h]
  rw [exec_feed, State.init_cfg, State.init_buf, hfeed]
  rfl

end QuiescentPhase

/-- Settles O31: the loop stops in a quiescent buffer, and the phase tells (Q1), (Q2) and (Q3) apart. -/
theorem feedLeavesQuiescentBuffer : Obligations.FeedLeavesQuiescentBuffer :=
  fun chunk s hw => ⟨_, exec_feed chunk s, quiescent_exactly_one (feedBuffer_quiescent hw s.buf chunk)⟩

/-- Settles O34: a caller's operation leaves the buffer, `FEED` leaves a quiescent one and `DISCARD` an empty one. -/
theorem operationsKeepCapacity : Obligations.OperationsKeepCapacity := by
  intro i s hw hbound
  obtain ⟨t, ht⟩ := exec_total i s
  refine ⟨t, ht, ?_⟩
  rw [exec_cfg ht]
  obtain ⟨hi, hb⟩ | ⟨chunk, -, hb⟩ | ⟨-, hb⟩ := exec_buf_cases ht <;> rw [hb]
  · obtain hle | ⟨chunk, rfl⟩ := hbound
    · exact hle
    · cases hi
  · exact (quiescent_length_le_residualMax (feedBuffer_quiescent hw _ _)).trans (residualMax_le_cap hw)
  · exact Nat.zero_le _

/-- Settles O35: the bound follows from the invariant, which every operation keeps, and a header-free run of half
the capacity reaches it. -/
theorem residualIsBounded : Obligations.ResidualIsBounded := by
  refine ⟨?bounded, ?reached, rfl⟩
  case bounded =>
    intro i s hs
    obtain ⟨t, ht⟩ := exec_total i s
    exact ⟨t, ht, State.inv_length_le_residualMax (exec_keeps_inv hs ht)⟩
  case reached =>
    intro cfg x hw hx
    exact ⟨residualMax_le_cap hw, exec_feed_of_Q1 (Q1_replicate_half hx)⟩

/-! ## A fresh block (10_state.md R29) -/

theorem State.init_inv {cfg : Cfg} (hw : cfg.wf = true) : (State.init cfg).inv = true :=
  State.inv_iff.2 ⟨hw, quiescent_nil⟩

/-- Settles O32: an empty buffer is quiescent and holds no header, and the default configuration is in range. -/
theorem freshBlockMeetsInvariant : Obligations.FreshBlockMeetsInvariant :=
  ⟨fun _ hw => ⟨State.init_inv hw, rfl, rfl, phase_of_head_ne (by simp)⟩, rfl, State.init_inv (by decide)⟩

/-! ## The operations of the caller (10_state.md R18 to R20) -/

/-- The operations of the caller deliver one output, which is the same over every buffer. -/
theorem exec_caller {i : Instr} (hi : i.agent = .caller) (s : State) :
    ∃ r tr, ∀ b, exec i (s.setBuf b) = .next ((s.setBuf b).deliver r tr) := by
  cases i with
  | checksum c L p => exact ⟨_, _, fun b => exec_checksum c L p (s.setBuf b)⟩
  | encode c p =>
    by_cases hp : p.length ≤ 255
    · exact ⟨none, [.tx (frameBytes s.cfg c p)], fun b => exec_encode_frame (s.setBuf b) hp⟩
    · exact ⟨_, _, fun b => exec_encode_tooLarge (s.setBuf b) (not_le.1 hp)⟩
  | encodeRaw r => exact ⟨_, _, fun b => exec_encodeRaw r (s.setBuf b)⟩
  | feed chunk => cases hi
  | discard => cases hi

/-- Settles O48: the output over the block's own buffer is the output over any other. -/
theorem callerOperationsIgnoreBuffer : Obligations.CallerOperationsIgnoreBuffer := by
  intro i b s hi
  obtain ⟨r, tr, h⟩ := exec_caller hi s
  exact ⟨r, tr, h s.buf, h b⟩

end Sys2Proof.Machine

/-! # Proofs of the family 20_memory: the buffer as a FIFO, frames in the stream, determinism, commuting agents -/

namespace Sys2Proof.Machine

/-! ## Runs that stand in a stream in order (20_memory.md R40) -/

section Streams

variable {stream rest rest' : List Byte} {runs runs' : List (List Byte)}

theorem inOrder_nil_iff : InOrder stream [] rest ↔ rest <:+ stream :=
  exists_congr fun _ => eq_comm

/-- More bytes in front of the stream are one more gap. -/
theorem InOrder.of_suffix {longer : List Byte} (h : InOrder stream runs rest) (hs : stream <:+ longer) :
    InOrder longer runs rest := by
  obtain ⟨front, rfl⟩ := hs
  cases runs with
  | nil => exact inOrder_nil_iff.2 ((inOrder_nil_iff.1 h).trans (List.suffix_append _ _))
  | cons run runs =>
    obtain ⟨gap, after, rfl, h⟩ := h
    exact ⟨front ++ gap, after, by simp only [List.append_assoc], h⟩

theorem InOrder.cons (run : List Byte) (h : InOrder stream runs rest) : InOrder (run ++ stream) (run :: runs) rest :=
  ⟨[], stream, rfl, h⟩

theorem InOrder.rest_suffix (h : InOrder stream runs rest) : rest <:+ stream := by
  induction runs generalizing stream with
  | nil => exact inOrder_nil_iff.1 h
  | cons run runs ih =>
    obtain ⟨gap, after, rfl, h⟩ := h
    exact (ih h).trans (List.suffix_append _ _)

/-- Runs in what the first runs left, with more of the stream behind it, go on from the first runs. -/
theorem InOrder.append {more : List Byte} (h : InOrder stream runs rest)
    (h' : InOrder (rest ++ more) runs' rest') : InOrder (stream ++ more) (runs ++ runs') rest' := by
  induction runs generalizing stream with
  | nil =>
    obtain ⟨gap, rfl⟩ := h
    exact h'.of_suffix ⟨gap, (List.append_assoc _ _ _).symm⟩
  | cons run runs ih =>
    obtain ⟨gap, after, rfl, h⟩ := h
    exact ⟨gap, after ++ more, by simp only [List.append_assoc], ih h⟩

end Streams

/-! ## What the loop and `FEED` put in the trace -/

@[simp] theorem filterMap_frame?_reportCorruption (cfg : Cfg) (reason : Reason) :
    (reportCorruption cfg reason).filterMap Event.frame? = [] := by
  unfold reportCorruption
  split <;> rfl

@[simp] theorem filterMap_tx?_reportCorruption (cfg : Cfg) (reason : Reason) :
    (reportCorruption cfg reason).filterMap Event.tx? = [] := by
  unfold reportCorruption
  split <;> rfl

/-- The frames are accepted ones, their bytes stand in the stream in order, and `rest` stands behind them. -/
def FramesStandIn (cfg : Cfg) (stream : List Byte) (fs : List (Byte × List Byte)) (rest : List Byte) : Prop :=
  (∀ f ∈ fs, f.2.length ≤ cfg.maxLen) ∧ InOrder stream (fs.map fun f => frameBytes cfg f.1 f.2) rest

section Feed

variable {cfg : Cfg} {stream rest rest' b b' : List Byte} {fs fs' : List (Byte × List Byte)} {tr : List Event}

theorem framesStandIn_nil (h : rest <:+ stream) : FramesStandIn cfg stream [] rest :=
  ⟨List.forall_mem_nil _, inOrder_nil_iff.2 h⟩

theorem FramesStandIn.of_suffix {longer : List Byte} (h : FramesStandIn cfg stream fs rest)
    (hs : stream <:+ longer) : FramesStandIn cfg longer fs rest :=
  ⟨h.1, h.2.of_suffix hs⟩

theorem FramesStandIn.cons {c : Byte} {p : List Byte} (hp : p.length ≤ cfg.maxLen)
    (h : FramesStandIn cfg stream fs rest) :
    FramesStandIn cfg (frameBytes cfg c p ++ stream) ((c, p) :: fs) rest :=
  ⟨List.forall_mem_cons.2 ⟨hp, h.1⟩, h.2.cons _⟩

theorem FramesStandIn.append {more : List Byte} (h : FramesStandIn cfg stream fs rest)
    (h' : FramesStandIn cfg (rest ++ more) fs' rest') :
    FramesStandIn cfg (stream ++ more) (fs ++ fs') rest' :=
  ⟨List.forall_mem_append.2 ⟨h.1, h'.1⟩, by rw [List.map_append]; exact h.2.append h'.2⟩

/-- The loop takes each frame it emits from the front of the buffer; every other label only drops bytes there. -/
theorem LoopRun.framesStandIn (h : LoopRun cfg b tr b') :
    FramesStandIn cfg b (tr.filterMap Event.frame?) b' := by
  induction h with
  | aTrim => exact framesStandIn_nil (List.drop_suffix _ _)
  | aStop | cStop | eStop => exact framesStandIn_nil (List.suffix_refl _)
  | bDiscard _ _ _ ih => exact ih.of_suffix (List.suffix_append _ _)
  | dDrop _ _ ih | gDrop _ _ _ _ ih | hDrop _ _ _ _ ih =>
    rw [List.filterMap_append, filterMap_frame?_reportCorruption]
    exact ih.of_suffix (List.suffix_cons _ _)
  | @iEmit c L pl b _ _ hL hp _ ih =>
    have hbytes := frameBytes_cons cfg c pl b
    rw [lengthByte_eq hp] at hbytes
    rw [← hbytes]
    exact ih.cons (hp.trans_le hL)

theorem LoopRun.no_tx (h : LoopRun cfg b tr b') : tr.filterMap Event.tx? = [] := by
  induction h with
  | aTrim | aStop | cStop | eStop => rfl
  | bDiscard _ _ _ ih | iEmit _ _ _ ih => exact ih
  | dDrop _ _ ih | gDrop _ _ _ _ ih | hDrop _ _ _ _ ih =>
    rw [List.filterMap_append, filterMap_tx?_reportCorruption, ih, List.nil_append]

/-- A `FEED` runs the loop on a suffix of the buffer with the chunk behind it (all of it, or what an overflow keeps),
and its trace is the loop's, but for the overflow's report. -/
theorem feedBuffer_loopRun (cfg : Cfg) (b chunk : List Byte) :
    ∃ b₁ pre tr, b₁ <:+ b ++ chunk ∧ LoopRun cfg b₁ tr (feedBuffer cfg b chunk).1 ∧
      (feedBuffer cfg b chunk).2 = pre ++ tr ∧ (pre = [] ∨ ∃ n, pre = [.err (.bufferOverflow n)]) := by
  by_cases hfit : b.length + chunk.length ≤ cfg.cap
  · rw [feedBuffer_fits hfit]
    exact ⟨_, [], _, List.suffix_refl _, loopRun_scanAll _, rfl, .inl rfl⟩
  · rw [feedBuffer_overflows (not_le.1 hfit)]
    exact ⟨_, [_], _, lastn_suffix _ _, loopRun_scanAll _, rfl, .inr ⟨_, rfl⟩⟩

theorem feedBuffer_framesStandIn (cfg : Cfg) (b chunk : List Byte) :
    FramesStandIn cfg (b ++ chunk) ((feedBuffer cfg b chunk).2.filterMap Event.frame?)
      (feedBuffer cfg b chunk).1 := by
  obtain ⟨b₁, pre, tr, hs, hrun, htr, hpre⟩ := feedBuffer_loopRun cfg b chunk
  have hframes : (feedBuffer cfg b chunk).2.filterMap Event.frame? = tr.filterMap Event.frame? := by
    obtain rfl | ⟨n, rfl⟩ := hpre <;> rw [htr] <;> rfl
  rw [hframes]
  exact hrun.framesStandIn.of_suffix hs

theorem feedBuffer_no_tx (cfg : Cfg) (b chunk : List Byte) :
    (feedBuffer cfg b chunk).2.filterMap Event.tx? = [] := by
  obtain ⟨_, pre, tr, -, hrun, htr, hpre⟩ := feedBuffer_loopRun cfg b chunk
  obtain rfl | ⟨n, rfl⟩ := hpre <;> rw [htr] <;> exact hrun.no_tx

end Feed

theorem exec_feed_framesStandIn (chunk : List Byte) (s : State) :
    ∃ t fs, exec (.feed chunk) s = .next t ∧ t.cfg = s.cfg ∧ t.framePort = s.framePort ++ fs ∧
      FramesStandIn s.cfg (s.buf ++ chunk) fs t.buf :=
  ⟨_, _, exec_feed chunk s, rfl, State.framePort_deliver _ _ _, feedBuffer_framesStandIn s.cfg s.buf chunk⟩

/-- Feeds one after the other read one stream: each goes on from the bytes the one before it left. -/
theorem execAll_feeds_framesStandIn (chunks : List (List Byte)) (s : State) :
    ∃ t fs, execAll (chunks.map Instr.feed) s = .next t ∧ t.framePort = s.framePort ++ fs ∧
      FramesStandIn s.cfg (s.buf ++ chunks.flatten) fs t.buf := by
  induction chunks generalizing s with
  | nil =>
    refine ⟨s, [], rfl, (List.append_nil _).symm, framesStandIn_nil ?_⟩
    rw [List.flatten_nil, List.append_nil]
  | cons chunk chunks ih =>
    obtain ⟨u, fs, hu, hcfg, hport, hstand⟩ := exec_feed_framesStandIn chunk s
    obtain ⟨t, fs', ht, hport', hstand'⟩ := ih u
    rw [hcfg] at hstand'
    refine ⟨t, fs ++ fs', (execAll_cons_of_exec hu _).trans ht, ?_, ?_⟩
    · rw [hport', hport, List.append_assoc]
    · rw [List.flatten_cons, ← List.append_assoc]
      exact hstand.append hstand'

/-- Settles O41, by induction on the chunks: the loop takes frames from the front of the buffer, and an overflow
leaves a suffix of it. -/
theorem framesStandInTheStream : Obligations.FramesStandInTheStream := by
  intro chunks s
  obtain ⟨t, fs, ht, hport, hlen, hin⟩ := execAll_feeds_framesStandIn chunks s
  exact ⟨t, fs, ht, hport, fun f hf => ⟨hlen f hf, frameBytes_length _ _ _⟩, hin⟩

/-- Settles O24: what is left in the buffer stands behind the emitted frames, at the end of the stream. -/
theorem feedKeepsASuffix : Obligations.FeedKeepsASuffix := by
  intro chunk s t h
  obtain ⟨u, fs, hu, -, -, -, hin⟩ := exec_feed_framesStandIn chunk s
  cases hu.symm.trans h
  exact hin.rest_suffix

/-! ## The loop has one outcome (20_memory.md R36) -/

section Determinism

variable {cfg : Cfg} {b b' : Memory} {tr : List Event}

/-- With more iterations than the buffer has bytes (41_stream_decoder.md R83), the loop ends in `b'` with trace `tr`. -/
def LoopComputes (cfg : Cfg) (b : Memory) (tr : List Event) (b' : Memory) : Prop :=
  ∀ n, b.length < n → scanLoop cfg n b = (b', tr)

theorem loopComputes_of_exit (h : scanIter cfg b = .exit b') : LoopComputes cfg b [] b' := by
  intro n hn
  obtain ⟨n, rfl⟩ := Nat.exists_eq_add_one_of_ne_zero (Nat.ne_zero_of_lt hn)
  exact scanLoop_exit h

theorem LoopComputes.of_again {tr₁ : List Event} {b₁ : Memory} (h : LoopComputes cfg b₁ tr b')
    (he : scanIter cfg b = .again tr₁ b₁) (hlt : b₁.length < b.length) : LoopComputes cfg b (tr₁ ++ tr) b' := by
  intro n hn
  obtain ⟨n, rfl⟩ := Nat.exists_eq_add_one_of_ne_zero (Nat.ne_zero_of_lt hn)
  rw [scanLoop_again he, h n (by omega)]

/-- Bytes before the first header do not change what the loop does. -/
theorem LoopComputes.discard {g : Memory} (hg : cfg.hdr ∉ g) (h : LoopComputes cfg (cfg.hdr :: b) tr b') :
    LoopComputes cfg (g ++ cfg.hdr :: b) tr b' := by
  intro n hn
  rw [List.length_append] at hn
  obtain ⟨n, rfl⟩ := Nat.exists_eq_add_one_of_ne_zero (Nat.ne_zero_of_lt hn)
  rw [← h (n + 1) (by omega), scanLoop, scanLoop, scanIter_discard hg, scanIter_header]

/-- Each rule of the relation is the iteration of its label, so a run of the relation is what the loop computes. -/
theorem LoopRun.loopComputes (h : LoopRun cfg b tr b') : LoopComputes cfg b tr b' := by
  have hnil : cfg.hdr ∉ ([] : Memory) := List.not_mem_nil
  induction h with
  | aTrim hn hb =>
    refine loopComputes_of_exit ((scanIter_noHeader hn).trans ?_)
    rw [trim, if_pos hb, lastn]
  | aStop hn hb =>
    refine loopComputes_of_exit ((scanIter_noHeader hn).trans ?_)
    rw [trim, if_neg (not_lt.2 hb)]
  | bDiscard hg _ _ ih => exact ih.discard hg
  | cStop hb => exact loopComputes_of_exit (scanIter_short hnil hb)
  | dDrop hL _ ih => exact ih.of_again (scanIter_badLength hnil hL) (by simp)
  | eStop hL hb => exact loopComputes_of_exit (scanIter_incomplete hnil hL hb)
  | gDrop hL hp ht _ ih => exact ih.of_again (scanIter_badTail hnil hL hp ht) (by simp)
  | hDrop hL hp hc _ ih => exact ih.of_again (scanIter_badChecksum hnil hL hp hc) (by simp)
  | iEmit hL hp _ ih =>
    refine ih.of_again (scanIter_valid hnil hL hp) ?_
    simp only [List.length_append, List.length_cons]
    omega

theorem LoopRun.scanAll_eq (h : LoopRun cfg b tr b') : scanAll cfg b = (b', tr) :=
  h.loopComputes _ (Nat.lt_succ_self _)

end Determinism

/-- Settles O21: both runs are the outcome the loop computes. -/
theorem loopHasOneOutcome : Obligations.LoopHasOneOutcome := by
  intro cfg b b₁ b₂ tr₁ tr₂ h₁ h₂
  obtain ⟨hb, htr⟩ := Prod.mk.inj (h₁.scanAll_eq.symm.trans h₂.scanAll_eq)
  exact ⟨htr, hb⟩

/-! ## The two agents (20_memory.md R39) -/

/-- A caller's operation delivers an output that depends on the configuration alone, with only `Tx` events in it. -/
theorem exec_caller_of_cfg {i : Instr} (hi : i.agent = .caller) (cfg : Cfg) :
    ∃ (r : Option Result) (txs : List (List Byte)),
      ∀ s : State, s.cfg = cfg → exec i s = .next (s.deliver r (txs.map Event.tx)) := by
  cases i with
  | checksum c L p => exact ⟨_, [], fun s _ => exec_checksum c L p s⟩
  | encode c p =>
    by_cases hp : p.length ≤ 255
    · exact ⟨none, [frameBytes cfg c p], fun s hs => hs ▸ exec_encode_frame s hp⟩
    · exact ⟨_, [], fun s _ => exec_encode_tooLarge s (not_le.1 hp)⟩
  | encodeRaw r => exact ⟨none, [r], fun s _ => exec_encodeRaw r s⟩
  | feed | discard => cases hi

/-- A reader loop's operation writes a buffer and delivers a trace that depend on the configuration and the buffer
alone; it returns no value and has no `Tx` event. -/
theorem exec_readerLoop_of_buf {j : Instr} (hj : j.agent = .readerLoop) (cfg : Cfg) (b : Memory) :
    ∃ b' tr, tr.filterMap Event.tx? = [] ∧
      ∀ s : State, s.cfg = cfg → s.buf = b → exec j s = .next ((s.setBuf b').deliver none tr) := by
  cases j with
  | feed chunk =>
    refine ⟨(feedBuffer cfg b chunk).1, _, feedBuffer_no_tx cfg b chunk, ?_⟩
    rintro s rfl rfl
    exact exec_feed chunk s
  | discard => exact ⟨[], [], rfl, fun s _ _ => exec_discard s⟩
  | checksum | encode | encodeRaw => cases hj

theorem execAll_pair {i j : Instr} {s t u : State} (hi : exec i s = .next t) (hj : exec j t = .next u) :
    execAll [i, j] s = .next u := by
  rw [execAll_cons_of_exec hi, execAll_cons_of_exec hj, execAll]

/-- Settles O49: neither operation's output depends on what the other changes, and they share no port: a caller's
puts bytes on the transmit port and values on the result port, a reader loop's frames and errors on theirs. -/
theorem encoderAndDecoderCommute : Obligations.EncoderAndDecoderCommute := by
  intro i j s hi hj
  obtain ⟨r, txs, hcaller⟩ := exec_caller_of_cfg hi s.cfg
  obtain ⟨b', tr, htx, hreader⟩ := exec_readerLoop_of_buf hj s.cfg s.buf
  refine ⟨_, _, execAll_pair (hcaller s rfl) (hreader _ rfl rfl), execAll_pair (hreader s rfl rfl) (hcaller _ rfl),
    rfl, rfl, rfl, ?frames, ?errors, ?txs, ?results⟩
  case frames => simp [List.filterMap_map, Function.comp_def, Event.frame?]
  case errors => simp [List.filterMap_map, Function.comp_def, Event.err?]
  case txs => simp [htx]
  case results => simp

end Sys2Proof.Machine

/-! # Proofs of the family 30_encoding: frames at their offsets, descriptors, the written form -/

namespace Sys2Proof.Machine

/-! ## The fields of a candidate at their offsets (30_encoding.md R45, R49) -/

section Candidate

variable {cfg : Cfg} {h c L cs tl : Byte} {b b' p rest : List Byte}

/-- The table of R45, read from a whole candidate and what follows it. -/
theorem candidate_offsets {n : Nat} (hp : p.length = n) (hb : b = h :: c :: L :: p ++ cs :: tl :: rest) :
    b[0]? = some h ∧ b[1]? = some c ∧ b[2]? = some L ∧ (b.drop 3).take n = p ∧ b[3 + n]? = some cs ∧
      b[4 + n]? = some tl ∧ b.drop (5 + n) = rest := by
  subst hb hp
  refine ⟨rfl, rfl, rfl, by simp, ?checksum, ?tail, ?behind⟩
  case checksum => simp [show 3 + p.length = p.length + 1 + 1 + 1 by omega]
  case tail => simp [show 4 + p.length = p.length + 1 + 1 + 1 + 1 by omega]
  case behind => simp [show 5 + p.length = p.length + 1 + 1 + 1 + 1 + 1 by omega]

/-- A buffer long enough for its declared length has the candidate's shape. -/
theorem exists_candidate {n : Nat} (h0 : b[0]? = some h) (h1 : b[1]? = some c) (h2 : b[2]? = some L)
    (hlen : 5 + n ≤ b.length) :
    ∃ p cs tl rest, b = h :: c :: L :: p ++ cs :: tl :: rest ∧ p.length = n := by
  match b with
  | x :: y :: z :: b =>
    cases h0; cases h1; cases h2
    simp only [List.length_cons] at hlen
    obtain ⟨p, cs, tl, rest, rfl, hp⟩ := candidate_split (n := n) (b := b) (by omega)
    exact ⟨p, cs, tl, rest, rfl, hp⟩
  | [] | [_] | [_, _] =>
    simp only [List.length_cons, List.length_nil] at hlen
    omega

/-- The conditions of R50, written as a shape, are those on the bytes at the offsets of R49. -/
theorem startsWithFrame_iff_offsets (h0 : b[0]? = some cfg.hdr) :
    StartsWithFrame cfg b c p b' ↔
      ∃ L : Byte, 3 ≤ b.length ∧ b[1]? = some c ∧ b[2]? = some L ∧ L.toNat ≤ cfg.maxLen ∧ 5 + L.toNat ≤ b.length ∧
        (b.drop 3).take L.toNat = p ∧ b[4 + L.toNat]? = some cfg.tl ∧ b[3 + L.toNat]? = some (checksum c L p) ∧
        b' = b.drop (5 + L.toNat) := by
  constructor
  · rintro ⟨L, hp, hmax, hb⟩
    obtain ⟨-, hc, hL, hpl, hcs, htl, hrest⟩ := candidate_offsets hp.symm hb
    have hlen : 5 + L.toNat ≤ b.length := by
      subst hb
      simp only [List.length_append, List.length_cons]
      omega
    exact ⟨L, by omega, hc, hL, hmax, hlen, hpl, htl, hcs, hrest.symm⟩
  · rintro ⟨L, -, hc, hL, hmax, hlen, hpl, htl, hcs, hrest⟩
    obtain ⟨q, cs, tl, rest, hb, hq⟩ := exists_candidate h0 hc hL hlen
    obtain ⟨-, -, -, hpl', hcs', htl', hrest'⟩ := candidate_offsets hq hb
    obtain rfl : q = p := hpl'.symm.trans hpl
    obtain rfl : cs = checksum c L q := Option.some.inj (hcs'.symm.trans hcs)
    obtain rfl : tl = cfg.tl := Option.some.inj (htl'.symm.trans htl)
    obtain rfl : b' = rest := hrest.trans hrest'
    exact ⟨L, hq.symm, hmax, hb⟩

theorem scanIter_ne_frame_of_report {reason : Reason} {b₁ : Memory}
    (h : scanIter cfg b = .again (reportCorruption cfg reason) b₁) : scanIter cfg b ≠ .again [.frame c p] b' := by
  intro he
  obtain ⟨htr, -⟩ := Iter.again.inj (h.symm.trans he)
  have hframes := congrArg (List.filterMap Event.frame?) htr
  simp [Event.frame?] at hframes

/-- Of the outcomes of R51 only the last emits, and it tells the buffer's shape. -/
theorem startsWithFrame_of_scanIter (he : scanIter cfg (cfg.hdr :: b) = .again [.frame c p] b') :
    StartsWithFrame cfg (cfg.hdr :: b) c p b' := by
  have hnil : cfg.hdr ∉ ([] : Memory) := List.not_mem_nil
  match b with
  | [] => cases (scanIter_short (b := []) hnil (by simp)).symm.trans he
  | [x] => cases (scanIter_short (b := [x]) hnil (by simp)).symm.trans he
  | c' :: L :: b =>
    by_cases hL : L.toNat ≤ cfg.maxLen
    case neg => exact absurd he (scanIter_ne_frame_of_report (scanIter_badLength hnil (not_le.1 hL)))
    by_cases hlen : b.length < L.toNat + 2
    case pos => cases (scanIter_incomplete hnil hL hlen).symm.trans he
    obtain ⟨pl, cs, tl, rest, rfl, hp⟩ := candidate_split (not_lt.1 hlen)
    by_cases ht : tl = cfg.tl
    case neg => exact absurd he (scanIter_ne_frame_of_report (scanIter_badTail hnil hL hp ht))
    subst ht
    by_cases hc : checksum c' L pl = cs
    case neg => exact absurd he (scanIter_ne_frame_of_report (scanIter_badChecksum hnil hL hp hc))
    subst hc
    cases (scanIter_valid hnil hL hp).symm.trans he
    exact ⟨L, hp.symm, hL, rfl⟩

/-- 41_stream_decoder.md R80: an iteration from a header emits a frame exactly where one stands, and goes on behind it. -/
theorem scanIter_eq_frame_iff :
    scanIter cfg (cfg.hdr :: b) = .again [.frame c p] b' ↔ StartsWithFrame cfg (cfg.hdr :: b) c p b' := by
  refine ⟨startsWithFrame_of_scanIter, ?_⟩
  rintro ⟨L, hp, hmax, hb⟩
  rw [hb]
  exact scanIter_valid (g := []) List.not_mem_nil hmax hp.symm

end Candidate

/-- Settles O27: an iteration emits where a frame starts, and the shape of a frame is the conditions at the offsets. -/
theorem onlyValidFramesAreEmitted : Obligations.OnlyValidFramesAreEmitted := by
  intro cfg b b' c p h0
  rw [← startsWithFrame_iff_offsets h0]
  obtain ⟨b, rfl⟩ := List.head?_eq_some_iff.1 (List.head?_eq_getElem?.trans h0)
  exact scanIter_eq_frame_iff

/-- Settles O18: the encoder's frame is a whole candidate with nothing behind it. -/
theorem frameLayout : Obligations.FrameLayout := by
  intro cfg c p hp
  obtain ⟨h0, h1, h2, hpl, hcs, htl, -⟩ := candidate_offsets rfl
    ((List.append_nil _).symm.trans (frameBytes_cons cfg c p []))
  exact ⟨lengthByte p, lengthByte_toNat hp, frameBytes_length cfg c p, h0, h1, h2, hpl, hcs, htl⟩

/-! ## Descriptors (30_encoding.md R53 to R55, R60) -/

/-- Settles O1: the five codes are those the encoder writes. -/
theorem selectCodesDecode : Obligations.SelectCodesDecode :=
  ⟨decode_encode (.checksum _ _ _), decode_encode (.encode _ _), decode_encode (.encodeRaw _), decode_encode (.feed _),
    decode_encode .discard⟩

/-- Each listed code accepts one form of operands, that of R53 (log 6). -/
theorem eq_encode_of_decode {d : Descriptor} {i : Instr} (h : decode d = .ok i) : d = encode i := by
  obtain ⟨op, operands⟩ := d
  unfold decode at h
  split_ifs at h
  all_goals
    split at h
    case h_1 => cases h; subst_vars; rfl
    case h_2 => cases h

/-- Settles O2: the decoder reads the encoder's descriptors back, and no others. -/
theorem descriptorNamesItsOperation : Obligations.DescriptorNamesItsOperation := by
  intro d i
  refine ⟨eq_encode_of_decode, ?_⟩
  rintro rfl
  exact decode_encode i

/-- The function code 0 of a unit is given to no operation. -/
theorem opFn_ne_zero_of_listed :
    ∀ op ∈ ([0x01#8, 0x11#8, 0x12#8, 0x21#8, 0x22#8] : List Byte), opFn op ≠ 0 := by
  decide

theorem decode_unlisted {op : Byte} (operands : List Operand)
    (h : op ∉ ([0x01#8, 0x11#8, 0x12#8, 0x21#8, 0x22#8] : List Byte)) :
    decode ⟨op, operands⟩ = .error (.unlistedOp op) := by
  obtain ⟨h01, h11, h12, h21, h22⟩ :
      op ≠ 0x01#8 ∧ op ≠ 0x11#8 ∧ op ≠ 0x12#8 ∧ op ≠ 0x21#8 ∧ op ≠ 0x22#8 := by
    simpa only [List.mem_cons, List.not_mem_nil, or_false, not_or] using h
  simp only [decode, h01, h11, h12, h21, h22, if_false]

theorem step_of_illegal {s : State} {d : Descriptor} {ds : List Descriptor} {e : DecodeError}
    (hc : s.cfg.wf = true) (hp : s.pending = d :: ds) (hd : decode d = .error e) :
    step s = .refused (.illegalDescriptor e) := by
  rw [step, State.fetch_illegal hc hp hd]

/-- Settles O3: an unlisted code fails every test of the decoder, and a step refuses what the decoder does. -/
theorem unlistedOpHasNoStep : Obligations.UnlistedOpHasNoStep := by
  intro op operands s ds
  refine ⟨fun hfn hop => opFn_ne_zero_of_listed op hop hfn, fun hop => ?_⟩
  have hd := decode_unlisted operands hop
  exact ⟨hd, fun hc hp => step_of_illegal hc hp hd⟩

theorem step_of_decode {s : State} {d : Descriptor} {ds : List Descriptor} {i : Instr}
    (hc : s.cfg.wf = true) (hp : s.pending = d :: ds) (hd : decode d = .ok i) :
    step s = exec i (s.setPending ds) := by
  rw [step, State.fetch_run hc hp hd]

/-- Settles O4: with the configuration in range, fetching answers the operation that the decoder reads. -/
theorem stepRunsDecodedOperation : Obligations.StepRunsDecodedOperation :=
  fun _ _ _ _ => step_of_decode

/-- Settles O55: the expansion makes the frame `ENCODE` makes, within the same limit. -/
theorem pseudoOperationsExpand : Obligations.PseudoOperationsExpand := by
  intro c p s
  refine ⟨fun hp => ⟨frameBytes s.cfg c p, exec_encode_frame s hp, if_pos hp⟩, fun hp => ?_, rfl⟩
  exact if_neg (not_le.2 hp)

/-! ## The written form (30_encoding.md R58; log 16) -/

/-- The characters at which a word ends. -/
def delimiters : List Char := [' ', ',', '[', ']', '"', ';']

/-- A text the reader of a line takes as one word. -/
abbrev IsWord (w : List Char) : Prop := w ≠ [] ∧ ∀ ch ∈ w, ch ∉ delimiters

section Lexing

variable {w cs : List Char}

@[simp] theorem flushWord_nil : flushWord [] = [] := rfl

theorem IsWord.flushWord_reverse (h : IsWord w) : flushWord w.reverse = [.word w] := by
  simp [flushWord, h.1]

theorem lex_space (acc : List Char) :
    lex (.word acc) (' ' :: cs) = (lex (.word []) cs).map (flushWord acc ++ ·) := by
  simp [lex]

theorem lex_comma (acc : List Char) :
    lex (.word acc) (',' :: cs) = (lex (.word []) cs).map (flushWord acc ++ .comma :: ·) := by
  simp [lex]

theorem lex_lbrack (acc : List Char) :
    lex (.word acc) ('[' :: cs) = (lex (.word []) cs).map (flushWord acc ++ .lbrack :: ·) := by
  simp [lex]

theorem lex_rbrack (acc : List Char) :
    lex (.word acc) (']' :: cs) = (lex (.word []) cs).map (flushWord acc ++ .rbrack :: ·) := by
  simp [lex]

/-- The reader takes a run of other characters into the word it stands in. -/
theorem lex_append_of_not_delimiters (h : ∀ ch ∈ w, ch ∉ delimiters) (acc : List Char) :
    lex (.word acc) (w ++ cs) = lex (.word (w.reverse ++ acc)) cs := by
  induction w generalizing acc with
  | nil => rfl
  | cons ch w ih =>
    obtain ⟨hch, hw⟩ := List.forall_mem_cons.1 h
    have hstep : lex (.word acc) (ch :: (w ++ cs)) = lex (.word (ch :: acc)) (w ++ cs) := by
      simp only [delimiters, List.mem_cons, List.not_mem_nil, or_false, not_or] at hch
      simp [lex, hch]
    rw [List.cons_append, hstep, ih hw]
    simp

theorem IsWord.lex_append (h : IsWord w) (cs : List Char) :
    lex (.word []) (w ++ cs) = lex (.word w.reverse) cs := by
  rw [lex_append_of_not_delimiters h.2, List.append_nil]

theorem IsWord.lex_self (h : IsWord w) : lex (.word []) w = some [.word w] := by
  have := h.lex_append []
  rwa [List.append_nil, lex, h.flushWord_reverse] at this

theorem IsWord.lex_append_space (h : IsWord w) :
    lex (.word []) (w ++ ' ' :: cs) = (lex (.word []) cs).map (.word w :: ·) := by
  rw [h.lex_append, lex_space, h.flushWord_reverse]; rfl

theorem IsWord.lex_append_comma (h : IsWord w) :
    lex (.word []) (w ++ ',' :: cs) = (lex (.word []) cs).map (.word w :: .comma :: ·) := by
  rw [h.lex_append, lex_comma, h.flushWord_reverse]; rfl

theorem IsWord.lex_append_rbrack (h : IsWord w) :
    lex (.word []) (w ++ ']' :: cs) = (lex (.word []) cs).map (.word w :: .rbrack :: ·) := by
  rw [h.lex_append, lex_rbrack, h.flushWord_reverse]; rfl

end Lexing

/-! The bytes and byte listings of a line. -/

theorem hexDigit_not_delimiter : ∀ n < 16, hexDigit n ∉ delimiters := by decide

theorem hexValue_hexDigit : ∀ n < 16, hexValue (hexDigit n) = some n := by decide

theorem hexByte_digits_lt (b : Byte) : b.toNat / 16 < 16 ∧ b.toNat % 16 < 16 := by
  have := b.isLt
  omega

theorem isWord_hexByte (b : Byte) : IsWord (hexByte b) := by
  obtain ⟨hhi, hlo⟩ := hexByte_digits_lt b
  simp [IsWord, hexByte, hexDigit_not_delimiter _ hhi, hexDigit_not_delimiter _ hlo]

@[simp] theorem readByte_hexByte (b : Byte) : readByte (hexByte b) = some b := by
  obtain ⟨hhi, hlo⟩ := hexByte_digits_lt b
  have hb : BitVec.ofNat 8 (16 * (b.toNat / 16) + b.toNat % 16) = b := by
    rw [Nat.div_add_mod, BitVec.ofNat_toNat, BitVec.setWidth_eq]
  simp only [hexByte, readByte, readPair, hexValue_hexDigit _ hhi, hexValue_hexDigit _ hlo, hb]

/-- What a listing is cut into behind its opening bracket. -/
def listingTokens (s : List Byte) : List Token := s.map (fun b => .word (hexByte b)) ++ [.rbrack]

theorem lex_listingBody (s : List Byte) : lex (.word []) (listingBody s ++ [']']) = some (listingTokens s) := by
  induction s with
  | nil => rfl
  | cons b s ih =>
    cases s with
    | nil => exact (isWord_hexByte b).lex_append_rbrack
    | cons b' s =>
      rw [listingBody, List.append_assoc, List.cons_append, (isWord_hexByte b).lex_append_space, ih]
      · rfl
      · simp

theorem lex_listing (s : List Byte) : lex (.word []) (listing s) = some (.lbrack :: listingTokens s) := by
  rw [listing, List.cons_append, lex_lbrack, lex_listingBody]
  rfl

@[simp] theorem readListing_listingTokens (s : List Byte) : readListing (listingTokens s) = some s := by
  induction s with
  | nil => rfl
  | cons b s ih =>
    rw [listingTokens, List.map_cons, List.cons_append, ← listingTokens, readListing, readByte_hexByte, ih]

/-- What the line of an operation is cut into. -/
def instrTokens (i : Instr) : List Token :=
  .word (mnemonicText i) ::
    match i with
    | .checksum c L p => .word (hexByte c) :: .comma :: .word (hexByte L) :: .comma :: .lbrack :: listingTokens p
    | .encode c p => .word (hexByte c) :: .comma :: .lbrack :: listingTokens p
    | .encodeRaw r => .lbrack :: listingTokens r
    | .feed chunk => .lbrack :: listingTokens chunk
    | .discard => []

theorem isWord_mnemonicText (i : Instr) : IsWord (mnemonicText i) := by
  cases i <;> simp [IsWord, mnemonicText, delimiters]

theorem lex_instrText (i : Instr) : lex (.word []) (instrText i) = some (instrTokens i) := by
  have hm := isWord_mnemonicText i
  cases i with
  | checksum c L p =>
    simp only [instrText, operandText, List.cons_append, List.append_assoc, List.nil_append, hm.lex_append_space,
      (isWord_hexByte c).lex_append_comma, (isWord_hexByte L).lex_append_comma, lex_space, lex_listing]
    rfl
  | encode c p =>
    simp only [instrText, operandText, List.cons_append, List.append_assoc, List.nil_append, hm.lex_append_space,
      (isWord_hexByte c).lex_append_comma, lex_space, lex_listing]
    rfl
  | encodeRaw bytes | feed bytes =>
    rw [instrText, operandText, hm.lex_append_space, lex_listing]
    rfl
  | discard => exact hm.lex_self

theorem readTokens_instrTokens (i : Instr) : readTokens (instrTokens i) = some i := by
  cases i <;> simp [instrTokens, mnemonicText, readTokens]

/-- Settles O56: the line is cut into the operation's pieces, and they read back as it. -/
theorem writtenOperationReadsBack : Obligations.WrittenOperationReadsBack := by
  intro i
  rw [readLine, lex_instrText]
  exact readTokens_instrTokens i

end Sys2Proof.Machine

/-! # Proofs of the family 40_checksum: the negated sum, the ways of forming it, what it detects -/

namespace Sys2Proof.Machine

/-! ## The checksum is the byte that brings the sum to 0 -/

theorem checksum_toNat_of_sumBytes (c L : Byte) (p : List Byte) :
    (checksum c L p).toNat = (256 - sumBytes (c :: L :: p) % 256) % 256 := by
  rw [checksum_toNat, sumBytes_cons, sumBytes_cons, Nat.add_assoc]

theorem sumBytes_concat (s : List Byte) (x : Byte) : sumBytes (s ++ [x]) = sumBytes s + x.toNat := by
  rw [sumBytes_append, sumBytes_cons, sumBytes_nil, Nat.add_zero]

theorem length_checkedBytes (c L cs : Byte) (p : List Byte) : (c :: L :: p ++ [cs]).length = p.length + 3 := by
  simp

/-- 40_checksum.md R63, R67: the one byte that makes the covered bytes sum to 0 mod 256. -/
theorem checksum_eq_iff {c L cs : Byte} {p : List Byte} :
    checksum c L p = cs ↔ sumBytes (c :: L :: p ++ [cs]) % 256 = 0 := by
  have hcs := cs.isLt
  rw [← BitVec.toNat_inj, checksum_toNat_of_sumBytes, sumBytes_concat]
  omega

theorem sumBytes_append_checksum (c L : Byte) (p : List Byte) :
    sumBytes (c :: L :: p ++ [checksum c L p]) % 256 = 0 :=
  checksum_eq_iff.mp rfl

theorem sumBytes_perm {s t : List Byte} (h : s.Perm t) : sumBytes s = sumBytes t := by
  rw [sumBytes_eq_sum, sumBytes_eq_sum]
  exact (h.map BitVec.toNat).sum_nat

/-- The checksum depends on the covered bytes through their sum alone. -/
theorem checksum_eq_of_perm {c L c' L' : Byte} {p p' : List Byte} (h : (c :: L :: p).Perm (c' :: L' :: p')) :
    checksum c' L' p' = checksum c L p :=
  checksum_eq_iff.mpr (by rw [← sumBytes_perm (h.append_right _)]; exact sumBytes_append_checksum c L p)

/-- Negating a single byte twice gives it back. -/
theorem checksum_checksum (b : Byte) : checksum (checksum b 0#8 []) 0#8 [] = b := by
  have h := sumBytes_append_checksum b 0#8 []
  rw [checksum_eq_iff]
  simp only [List.cons_append, List.nil_append, sumBytes_cons, sumBytes_nil] at h ⊢
  omega

/-! ## Wrapping at every addition -/

theorem foldl_add_mod (n : Nat) (l : List Nat) (a : Nat) :
    l.foldl (fun a y => (a + y) % n) (a % n) = (a + l.sum) % n := by
  induction l generalizing a with
  | nil => rfl
  | cons y l ih => rw [List.foldl_cons, ih, List.sum_cons, Nat.add_assoc, Nat.mod_add_mod]

/-! ## One changed byte -/

theorem sumBytes_set {l : List Byte} {i : Nat} (h : i < l.length) (x : Byte) :
    sumBytes (l.set i x) + l[i].toNat = sumBytes l + x.toNat := by
  induction l generalizing i with
  | nil => cases h
  | cons y l ih =>
    cases i with
    | zero => simp only [List.set_cons_zero, List.getElem_cons_zero, sumBytes_cons]; omega
    | succ i =>
      have ih := ih (Nat.lt_of_succ_lt_succ h)
      simp only [List.set_cons_succ, List.getElem_cons_succ, sumBytes_cons]
      omega

/-- Two different bytes differ by less than 256, so exchanging one for the other moves the sum mod 256. -/
theorem sumBytes_set_mod_ne {l : List Byte} {i : Nat} {x : Byte} (h : i < l.length) (hx : l[i]? ≠ some x) :
    sumBytes (l.set i x) % 256 ≠ sumBytes l % 256 := by
  have hne : l[i].toNat ≠ x.toNat := fun e =>
    hx (by rw [List.getElem?_eq_getElem h, BitVec.eq_of_toNat_eq e])
  have hset := sumBytes_set h x
  have hl := l[i].isLt
  have hxlt := x.isLt
  omega

/-! ## The obligations -/

/-- Settles O10: the operation delivers the checksum and nothing else, and the checksum is the negated sum. -/
theorem checksumReturnsNegatedSum : Obligations.ChecksumReturnsNegatedSum := by
  intro c L p s
  refine ⟨rfl, checksum c L p, ?_, exec_checksum c L p s⟩
  rw [checksum_toNat_of_sumBytes, ← sumBytes_eq_sum]
  omega

/-- Settles O11: wrapping at every addition leaves the sum mod 256, whose three negations are the checksum; the sum
does not see the order of the bytes. -/
theorem checksumFormsAgree : Obligations.ChecksumFormsAgree := by
  intro c L p x s
  have hs : s = x.sum % 256 := (foldl_add_mod 256 x 0).trans (by rw [Nat.zero_add])
  have hc : (checksum c L p).toNat = (256 - s) % 256 := by
    rw [checksum_toNat_of_sumBytes, sumBytes_eq_sum, hs]
  have hlt : s < 256 := by omega
  refine ⟨hs, ?_, ?_, hc, fun _ _ _ => checksum_eq_of_perm⟩
  · rw [hc]; omega
  · rw [hc]; omega

/-- Settles O12: the checksum brings the sum to 0, and offsets 1 to `3 + L` hold just the covered bytes and it. -/
theorem checkedBytesSumToZero : Obligations.CheckedBytesSumToZero := by
  constructor
  · intro c L p
    rw [← sumBytes_eq_sum, ← sumBytes_concat]
    exact sumBytes_append_checksum c L p
  · rintro cfg b rest c p ⟨L, -, -, rfl⟩
    have hbehind : (cfg.hdr :: c :: L :: p ++ checksum c L p :: cfg.tl :: rest).drop 1 =
        (c :: L :: p ++ [checksum c L p]) ++ cfg.tl :: rest :=
      List.append_cons ..
    rw [hbehind, Nat.add_comm, List.take_left' (length_checkedBytes c L _ p), ← sumBytes_eq_sum]
    exact sumBytes_append_checksum c L p

/-- Settles O13: acceptance is a zero sum, and one changed byte moves the sum away from 0. -/
theorem oneChangedByteIsDetected : Obligations.OneChangedByteIsDetected := by
  constructor
  · intro c L cs p
    rw [← sumBytes_eq_sum]
    exact checksum_eq_iff
  · intro c L x p i hi hx
    rw [← sumBytes_eq_sum, ← sumBytes_append_checksum c L p]
    exact sumBytes_set_mod_ne (hi.trans_eq (length_checkedBytes c L _ p).symm) hx

/-- Settles O14: every byte is the checksum of its own negation. -/
theorem everyByteIsAChecksum : Obligations.EveryByteIsAChecksum := by
  refine ⟨fun b => ⟨_, _, _, checksum_checksum b⟩, fun c => ?_, fun b => ⟨_, checksum_checksum b⟩⟩
  have hc := c.isLt
  rw [checksum_toNat_of_sumBytes]
  simp only [sumBytes_cons, sumBytes_nil, BitVec.toNat_zero]
  omega

end Sys2Proof.Machine

/-! # Proofs of the family 41_stream_decoder: the loop of `FEED`, its transition table, streams of frames, chunks -/

namespace Sys2Proof.Machine

/-! ## `FEED` is the loop on what step 1 leaves (41_stream_decoder.md R69, R70) -/

section FeedRuns

variable {cfg : Cfg} {b b' chunk : List Byte} {tr : List Event}

theorem feedBuffer_fits_loopRun (h : b.length + chunk.length ≤ cfg.cap) :
    LoopRun cfg (b ++ chunk) (feedBuffer cfg b chunk).2 (feedBuffer cfg b chunk).1 := by
  rw [feedBuffer_fits h]
  exact loopRun_scanAll _

theorem feedBuffer_overflows_loopRun (h : cfg.cap < b.length + chunk.length) :
    ∃ tr, (feedBuffer cfg b chunk).2 = .err (.bufferOverflow (b.length + chunk.length)) :: tr ∧
      LoopRun cfg ((b ++ chunk).drop (b.length + chunk.length - cfg.ovfKeep)) tr (feedBuffer cfg b chunk).1 := by
  have hkept : lastn cfg.ovfKeep (b ++ chunk) = (b ++ chunk).drop (b.length + chunk.length - cfg.ovfKeep) := by
    rw [lastn, List.length_append]
  rw [feedBuffer_overflows h, hkept]
  exact ⟨_, rfl, loopRun_scanAll _⟩

/-- A run of the loop from the buffer with the chunk behind it tells everything that a `FEED` without overflow does. -/
theorem exec_feed_of_loopRun {s : State} (hfit : s.buf.length + chunk.length ≤ s.cfg.cap)
    (h : LoopRun s.cfg (s.buf ++ chunk) tr b') : exec (.feed chunk) s = .next ((s.setBuf b').deliver none tr) := by
  rw [exec_feed, feedBuffer_fits hfit, h.scanAll_eq]

end FeedRuns

/-- Settles O20: step 1 of `FEED` chooses the buffer, and on it the loop is a run of the relation. -/
theorem feedRunsTheLoop : Obligations.FeedRunsTheLoop :=
  fun chunk s => ⟨rfl, _, _, exec_feed chunk s, feedBuffer_fits_loopRun, feedBuffer_overflows_loopRun⟩

/-! ## Chunk boundaries (41_stream_decoder.md R85) -/

section Chunks

variable {cfg : Cfg} {b b₁ b₂ b₃ x : Memory} {tr tr' : List Event}

/-- Two buffers are the same, except that two header-free ones may differ: a trim may have come at another time. -/
def SameUnlessHeaderFree (cfg : Cfg) (b₁ b₂ : Memory) : Prop := cfg.hdr ∈ b₁ ∨ cfg.hdr ∈ b₂ → b₁ = b₂

theorem SameUnlessHeaderFree.refl (b : Memory) : SameUnlessHeaderFree cfg b b := fun _ => rfl

theorem sameUnlessHeaderFree_of_headerFree (h₁ : cfg.hdr ∉ b₁) (h₂ : cfg.hdr ∉ b₂) :
    SameUnlessHeaderFree cfg b₁ b₂ :=
  fun h => h.elim (absurd · h₁) (absurd · h₂)

theorem SameUnlessHeaderFree.trans (h₁₂ : SameUnlessHeaderFree cfg b₁ b₂) (h₂₃ : SameUnlessHeaderFree cfg b₂ b₃) :
    SameUnlessHeaderFree cfg b₁ b₃ := by
  rintro (h | h)
  · have h12 := h₁₂ (.inl h)
    exact h12.trans (h₂₃ (.inl (h12 ▸ h)))
  · have h23 := h₂₃ (.inr h)
    exact (h₁₂ (.inr (h23 ▸ h))).trans h23

theorem trim_suffix (cfg : Cfg) (b : Memory) : trim cfg b <:+ b := by
  rw [trim]
  split
  · exact lastn_suffix _ _
  · exact List.suffix_refl _

/-- The loop does with a header-free run in front of a header what it does without it. -/
theorem scanAll_discard {g : Memory} (hg : cfg.hdr ∉ g) :
    scanAll cfg (g ++ cfg.hdr :: b) = scanAll cfg (cfg.hdr :: b) :=
  ((loopRun_scanAll _).discard hg).scanAll_eq

/-- On a header-free buffer the loop has no event and leaves a header-free buffer. -/
theorem LoopRun.of_headerFree (hb : cfg.hdr ∉ b) (h : LoopRun cfg b tr b₁) : tr = [] ∧ cfg.hdr ∉ b₁ := by
  obtain ⟨rfl, rfl⟩ := Prod.mk.inj (h.scanAll_eq.symm.trans (scanAll_noHeader hb))
  exact ⟨rfl, fun hm => hb ((trim_suffix cfg b).subset hm)⟩

/-- Which header-free bytes stand in front of a stream does not matter to the loop. -/
theorem LoopRun.exchange_headerFree {g g' : Memory} (hg : cfg.hdr ∉ g) (hg' : cfg.hdr ∉ g')
    (h : LoopRun cfg (g' ++ x) tr b₁) : ∃ b₂, LoopRun cfg (g ++ x) tr b₂ ∧ SameUnlessHeaderFree cfg b₁ b₂ := by
  by_cases hx : cfg.hdr ∈ x
  · obtain ⟨f, y, rfl, hf⟩ := mem_split_first hx
    rw [← List.append_assoc] at h ⊢
    have hrun := (loopRun_scanAll (cfg.hdr :: y)).discard (List.not_mem_append hg hf)
    rw [← scanAll_discard (List.not_mem_append hg' hf), h.scanAll_eq] at hrun
    exact ⟨b₁, hrun, .refl _⟩
  · have hgx := List.not_mem_append hg hx
    obtain ⟨rfl, hb₁⟩ := h.of_headerFree (List.not_mem_append hg' hx)
    obtain ⟨-, hb₂⟩ := (LoopRun.noHeader hgx).of_headerFree hgx
    exact ⟨_, .noHeader hgx, sameUnlessHeaderFree_of_headerFree hb₁ hb₂⟩

/-- Bytes that come after the loop has stopped could as well have been there from the start: its drops and emissions
depend only on bytes already present, its stops (c) and (e) discard nothing, and its trim only header-free bytes. -/
theorem LoopRun.resume (h : LoopRun cfg b tr b₁) (h' : LoopRun cfg (b₁ ++ x) tr' b₂) :
    ∃ b₃, LoopRun cfg (b ++ x) (tr ++ tr') b₃ ∧ SameUnlessHeaderFree cfg b₂ b₃ := by
  induction h with
  | aTrim hb _ => exact h'.exchange_headerFree hb fun hm => hb (List.mem_of_mem_drop hm)
  | aStop | cStop | eStop => exact ⟨b₂, h', .refl _⟩
  | bDiscard hg _ _ ih =>
    obtain ⟨b₃, hrun, hsame⟩ := ih h'
    exact ⟨b₃, by simpa using hrun.discard hg, hsame⟩
  | dDrop hL _ ih =>
    obtain ⟨b₃, hrun, hsame⟩ := ih h'
    exact ⟨b₃, by simpa using LoopRun.dDrop hL hrun, hsame⟩
  | gDrop hL hp ht _ ih =>
    obtain ⟨b₃, hrun, hsame⟩ := ih h'
    exact ⟨b₃, by simpa using LoopRun.gDrop hL hp ht (by simpa using hrun), hsame⟩
  | hDrop hL hp hc _ ih =>
    obtain ⟨b₃, hrun, hsame⟩ := ih h'
    exact ⟨b₃, by simpa using LoopRun.hDrop hL hp hc (by simpa using hrun), hsame⟩
  | iEmit hL hp _ ih =>
    obtain ⟨b₃, hrun, hsame⟩ := ih h'
    exact ⟨b₃, by simpa using LoopRun.iEmit hL hp hrun, hsame⟩

theorem noOverflow_append : NoOverflow (tr ++ tr') ↔ NoOverflow tr ∧ NoOverflow tr' := by
  simp only [NoOverflow, List.mem_append, not_or, forall_and]

/-- A `FEED` that reports no overflow appended the whole chunk. -/
theorem feedBuffer_noOverflow_loopRun {chunk : List Byte} (h : NoOverflow (feedBuffer cfg b chunk).2) :
    LoopRun cfg (b ++ chunk) (feedBuffer cfg b chunk).2 (feedBuffer cfg b chunk).1 := by
  refine feedBuffer_fits_loopRun (not_lt.1 fun hover => ?_)
  obtain ⟨tr, htr, -⟩ := feedBuffer_overflows_loopRun hover
  exact h _ (htr ▸ List.mem_cons_self)

end Chunks

/-- Feeds that report no overflow put in the trace what one run of the loop over the whole stream does. -/
theorem execAll_feeds_loopRun (chunk : List Byte) (chunks : List (List Byte)) (s : State) :
    ∃ t tr, execAll ((chunk :: chunks).map Instr.feed) s = .next t ∧ t.events = s.events ++ tr ∧
      (NoOverflow tr → ∃ b, LoopRun s.cfg (s.buf ++ (chunk :: chunks).flatten) tr b ∧
        SameUnlessHeaderFree s.cfg t.buf b) := by
  induction chunks generalizing chunk s with
  | nil =>
    refine ⟨_, _, execAll_cons_of_exec (exec_feed chunk s) [], State.events_deliver _ _ _, fun hno => ⟨_, ?_, .refl _⟩⟩
    rw [List.flatten_singleton]
    exact feedBuffer_noOverflow_loopRun hno
  | cons chunk' chunks ih =>
    obtain ⟨t, tr, ht, hev, hrun⟩ :=
      ih chunk' ((s.setBuf (feedBuffer s.cfg s.buf chunk).1).deliver none (feedBuffer s.cfg s.buf chunk).2)
    refine ⟨t, (feedBuffer s.cfg s.buf chunk).2 ++ tr, (execAll_cons_of_exec (exec_feed chunk s) _).trans ht, ?_,
      fun hno => ?_⟩
    · rw [hev, State.events_deliver, State.events_setBuf, List.append_assoc]
    · obtain ⟨hno₁, hno₂⟩ := noOverflow_append.1 hno
      obtain ⟨b, hb, hsame⟩ := hrun hno₂
      obtain ⟨b', hb', hsame'⟩ := (feedBuffer_noOverflow_loopRun hno₁).resume hb
      rw [List.flatten_cons, ← List.append_assoc]
      exact ⟨b', hb', hsame.trans hsame'⟩

/-- Settles O40, by induction on the chunks: the loop resumed on the next chunk goes on as if that chunk had been there
from the start. -/
theorem chunkBoundariesDoNotMatter : Obligations.ChunkBoundariesDoNotMatter := by
  intro chunks s hne
  obtain ⟨chunk, chunks, rfl⟩ := List.exists_cons_of_ne_nil hne
  obtain ⟨t, tr, ht, hev, hrun⟩ := execAll_feeds_loopRun chunk chunks s
  refine ⟨t, _, tr, _, ht, hev, exec_feed _ s, State.events_deliver _ _ _, fun hno₁ hno₂ => ?_⟩
  obtain ⟨b, hb, hsame⟩ := hrun hno₁
  obtain ⟨rfl, rfl⟩ := loopHasOneOutcome _ _ _ _ _ _ hb (feedBuffer_noOverflow_loopRun hno₂)
  exact ⟨rfl, hsame⟩

/-! ## Progress (41_stream_decoder.md R83) -/

section Progress

variable {cfg : Cfg} {b b' : Memory} {tr : List Event}

/-- Everything an iteration from a header that goes on can have done. -/
theorem scanIter_again_cases (h : scanIter cfg (cfg.hdr :: b) = .again tr b') :
    (∃ reason, tr = reportCorruption cfg reason) ∧ b' = b ∨
      ∃ c p, tr = [.frame c p] ∧ StartsWithFrame cfg (cfg.hdr :: b) c p b' := by
  have hact := scanIter_header.symm.trans h
  cases hv : classify cfg (cfg.hdr :: b) with rw [hv] at hact
  | short | incomplete => cases hact
  | badLength | badTail | badChecksum => cases hact; exact .inl ⟨⟨_, rfl⟩, rfl⟩
  | valid c p =>
    obtain ⟨rfl, -⟩ := Iter.again.inj hact
    exact .inr ⟨c, p, rfl, startsWithFrame_of_scanIter h⟩

theorem StartsWithFrame.length_eq {c : Byte} {p : List Byte} (h : StartsWithFrame cfg b c p b') :
    b.length = b'.length + 5 + p.length := by
  obtain ⟨L, -, -, rfl⟩ := h
  simp only [List.length_append, List.length_cons]
  omega

end Progress

/-- Settles O22: an iteration drops a header or removes a whole frame, so more iterations than bytes are never used. -/
theorem loopTerminates : Obligations.LoopTerminates := by
  intro cfg b
  refine ⟨fun tr b' h => ?_, fun n hn => (loopRun_scanAll b).loopComputes n hn⟩
  by_cases hb : cfg.hdr ∈ b
  · obtain ⟨g, b, rfl, hg⟩ := mem_split_first hb
    rw [scanIter_discard hg, ← scanIter_header] at h
    have hlen : (g ++ cfg.hdr :: b).length = g.length + (cfg.hdr :: b).length := List.length_append
    obtain ⟨hreason, rfl⟩ | ⟨c, p, htr, hframe⟩ := scanIter_again_cases h
    · exact ⟨by rw [hlen, List.length_cons]; omega, .inl hreason⟩
    · have hremoved := hframe.length_eq
      exact ⟨by omega, .inr ⟨c, p, htr, by omega⟩⟩
  · cases (scanIter_noHeader hb).symm.trans h

/-! ## Quiescent buffers and the transition table (41_stream_decoder.md R82, R84) -/

section Table

variable {cfg : Cfg} {b : Memory}

theorem exists_declaredLength {L : Byte} (h0 : b[0]? = some cfg.hdr) (h2 : b[2]? = some L) :
    ∃ c rest, b = cfg.hdr :: c :: L :: rest := by
  match b with
  | x :: c :: y :: rest => cases h0; cases h2; exact ⟨c, rest, rfl⟩
  | [] | [_] | [_, _] => cases h2

/-- Each of (Q1), (Q2) and (Q3) is a stop of the loop. -/
theorem LoopRun.of_quiescent (h : quiescent cfg b = true) : LoopRun cfg b [] b := by
  obtain hq | hq | hq := quiescent_iff.1 h
  · obtain ⟨hb, hlen⟩ := Q1_iff.1 hq
    exact .aStop hb hlen
  · obtain ⟨hhead, hlen⟩ := Q2_iff.1 hq
    obtain ⟨rest, rfl⟩ := List.head?_eq_some_iff.1 hhead
    exact .cStop (Nat.lt_of_succ_lt_succ hlen)
  · obtain ⟨hhead, L, h2, hL, hlen⟩ := Q3_iff.1 hq
    obtain ⟨c, rest, rfl⟩ := exists_declaredLength (List.head?_eq_getElem?.symm.trans hhead) h2
    simp only [List.length_cons] at hlen
    exact .eStop hL (by omega)

end Table

/-- Settles O37: the loop stops at once in a quiescent buffer, and a quiescent buffer fits. -/
theorem emptyFeedChangesNothing : Obligations.EmptyFeedChangesNothing := by
  intro s hs
  have hstop := LoopRun.of_quiescent (State.inv_iff.1 hs).2
  have hfit : s.buf.length + ([] : List Byte).length ≤ s.cfg.cap := State.inv_length_le_cap hs
  exact ⟨exec_feed_of_loopRun hfit (by rw [List.append_nil]; exact hstop), hstop.scanAll_eq⟩

/-- Settles O26: in each phase the buffer has the shape of one label or of the three tests on a whole candidate, and
the label's rule goes on with the run from the rest. -/
theorem transitionTable : Obligations.TransitionTable := by
  intro cfg b
  obtain ⟨-, -, hreject, -, hemit⟩ := phaseFollowsTable cfg b
  refine ⟨fun _ hb => scanAll_noHeader hb, fun _ hb => ?seeking, fun hp => ?haveHeader, fun hp => ?lengthReject,
    fun hp => ?accumulating, fun hp => ?emit⟩
  case seeking =>
    obtain ⟨g, b', rfl, hg⟩ := mem_split_first hb
    refine ⟨g, b', rfl, hg, fun hp => ?_, scanAll_discard hg⟩
    obtain ⟨hseeking, -⟩ := phaseFollowsTable cfg (cfg.hdr :: b')
    simpa using hseeking.1 hp
  case haveHeader =>
    exact (LoopRun.of_quiescent (quiescent_iff.2 (.inr (.inl (Q2_iff_phase.2 hp))))).scanAll_eq
  case lengthReject =>
    obtain ⟨h0, -, L, h2, hL⟩ := hreject.1 hp
    obtain ⟨c, rest, rfl⟩ := exists_declaredLength h0 h2
    exact (LoopRun.dDrop hL (loopRun_scanAll _)).scanAll_eq
  case accumulating =>
    exact (LoopRun.of_quiescent (quiescent_iff.2 (.inr (.inr (Q3_iff_phase.2 hp))))).scanAll_eq
  case emit =>
    obtain ⟨h0, -, L, h2, hL, hlen⟩ := hemit.1 hp
    obtain ⟨c, rest, rfl⟩ := exists_declaredLength h0 h2
    simp only [List.length_cons] at hlen
    obtain ⟨pl, cs, tl, rest, rfl, hpl⟩ := candidate_split (n := L.toNat) (b := rest) (by omega)
    refine ⟨c, L, cs, tl, pl, rest, rfl, hpl, ?badTail, ?badChecksum, ?valid⟩
    case badTail =>
      exact fun ht => (LoopRun.gDrop hL hpl ht (loopRun_scanAll _)).scanAll_eq
    case badChecksum =>
      rintro rfl hc
      exact (LoopRun.hDrop hL hpl hc (loopRun_scanAll _)).scanAll_eq
    case valid =>
      rintro rfl rfl
      exact (LoopRun.iEmit hL hpl (loopRun_scanAll _)).scanAll_eq

/-! ## Frames behind header-free bytes (41_stream_decoder.md R86, R87, R90) -/

section Frames

variable {cfg : Cfg} {b' g p rest : List Byte} {c : Byte} {tr : List Event}

theorem LoopRun.nil : LoopRun cfg [] [] [] := .aStop List.not_mem_nil (Nat.zero_le _)

theorem loopRun_frameBytes_append (hw : cfg.wf = true) (hg : cfg.hdr ∉ g) (hp : p.length ≤ cfg.maxLen)
    (h : LoopRun cfg rest tr b') : LoopRun cfg (g ++ (frameBytes cfg c p ++ rest)) (.frame c p :: tr) b' := by
  obtain ⟨hmax, -⟩ := Cfg.wf_iff.1 hw
  have hL : (lengthByte p).toNat = p.length := lengthByte_toNat (hp.trans hmax)
  rw [frameBytes_cons]
  exact (LoopRun.iEmit (hL.trans_le hp) hL.symm h).discard hg

/-- A whole frame behind header-free bytes is emitted, and nothing is left. -/
theorem loopRun_frameBytes (hw : cfg.wf = true) (hg : cfg.hdr ∉ g) (hp : p.length ≤ cfg.maxLen) :
    LoopRun cfg (g ++ frameBytes cfg c p) [.frame c p] [] := by
  have h := loopRun_frameBytes_append (c := c) hw hg hp .nil
  rwa [List.append_nil] at h

end Frames

/-- Settles O42: the garbage is one more header-free run in front of the frame. -/
theorem headerFreeGarbageIsSkipped : Obligations.HeaderFreeGarbageIsSkipped := by
  intro g c p s hw hb hg hp hfit
  have hrun := loopRun_frameBytes (c := c) hw (List.not_mem_append hb hg) hp
  rw [List.append_assoc] at hrun
  refine exec_feed_of_loopRun ?_ hrun
  rw [List.length_append, frameBytes_length]
  omega

/-- Settles O38: what `ENCODE` transmits is a whole frame; half of the default capacity is room for every frame. -/
theorem encodeThenFeedGivesTheFrame : Obligations.EncodeThenFeedGivesTheFrame := by
  constructor
  · intro c p s hw hb hp hfit
    obtain ⟨hmax, -⟩ := Cfg.wf_iff.1 hw
    exact ⟨_, exec_encode_frame s (hp.trans hmax),
      headerFreeGarbageIsSkipped [] c p s hw hb List.not_mem_nil hp hfit⟩
  · intro b p hb hp
    obtain ⟨-, hlen⟩ := Q1_iff.1 hb
    simp only [Cfg.default] at hlen ⊢
    omega

/-- Settles O46: with a zero sum the byte behind the payload is its checksum, so the run is a valid candidate. -/
theorem anyZeroSumRunIsEmitted : Obligations.AnyZeroSumRunIsEmitted := by
  intro c L cs pl s hb hL hp hsum hfit
  rw [← sumBytes_eq_sum] at hsum
  obtain rfl := checksum_eq_iff.2 hsum
  have hrun : LoopRun s.cfg (s.buf ++ (s.cfg.hdr :: c :: L :: pl ++ [checksum c L pl, s.cfg.tl])) [.frame c pl] [] :=
    (LoopRun.iEmit hL hp .nil).discard hb
  refine exec_feed_of_loopRun ?_ hrun
  simp only [List.length_append, List.length_cons, List.length_nil]
  omega

/-- Settles O45: the longer buffer is still a candidate short of its bytes, at which the loop stops. -/
theorem pendingCandidateHoldsTheStream : Obligations.PendingCandidateHoldsTheStream := by
  intro chunk c L b s hw hb hL hshort
  obtain ⟨-, hcap, -⟩ := Cfg.wf_iff.1 hw
  have hrun : LoopRun s.cfg (s.buf ++ chunk) [] (s.buf ++ chunk) := by
    simp only [hb, List.length_cons, List.cons_append] at hshort ⊢
    exact .eStop hL (by rw [List.length_append]; omega)
  exact exec_feed_of_loopRun (by omega) hrun

/-! ## Corrupted frames (41_stream_decoder.md R88) -/

/-- Behind a header, and whatever follows them, the bytes `body` are rejected: the loop reports the reason and goes on
from `body`. -/
def RejectedAs (cfg : Cfg) (reason : Reason) (body : List Byte) : Prop :=
  ∀ rest tr b', LoopRun cfg (body ++ rest) tr b' →
    LoopRun cfg (cfg.hdr :: body ++ rest) (reportCorruption cfg reason ++ tr) b'

section Rejected

variable {cfg : Cfg} {c d L cs tl x : Byte} {body p q : List Byte} {reason : Reason} {s : State}

theorem rejectedAs_tail (hL : L.toNat ≤ cfg.maxLen) (hp : p.length = L.toNat) (ht : tl ≠ cfg.tl) :
    RejectedAs cfg .tail (c :: L :: p ++ [cs] ++ [tl]) := by
  intro rest tr b' h
  simpa using LoopRun.gDrop hL hp ht (by simpa using h)

theorem rejectedAs_checksum (hL : L.toNat ≤ cfg.maxLen) (hp : p.length = L.toNat) (hc : checksum c L p ≠ cs) :
    RejectedAs cfg .checksum (c :: L :: p ++ [cs] ++ [cfg.tl]) := by
  intro rest tr b' h
  simpa using LoopRun.hDrop hL hp hc (by simpa using h)

theorem exec_feed_rejected (h : RejectedAs s.cfg reason body) (hb : s.cfg.hdr ∉ s.buf)
    (hfit : s.buf.length + (body.length + 1) ≤ s.cfg.cap) :
    ∃ t tr, exec (.feed (s.cfg.hdr :: body)) s = .next t ∧
      t.events = s.events ++ reportCorruption s.cfg reason ++ tr ∧ LoopRun s.cfg body tr t.buf := by
  have hbody := loopRun_scanAll (cfg := s.cfg) body
  have hrun := h [] _ _ (by rw [List.append_nil]; exact hbody)
  rw [List.append_nil] at hrun
  refine ⟨_, _, exec_feed_of_loopRun hfit (hrun.discard hb), ?_, hbody⟩
  rw [State.events_deliver, State.events_setBuf, List.append_assoc]

/-- When no header stands in the rejected bytes, they are header-free garbage before the next frame. -/
theorem exec_feed_rejected_frame (h : RejectedAs s.cfg reason body) (hw : s.cfg.wf = true)
    (hb : s.cfg.hdr ∉ s.buf) (hbody : s.cfg.hdr ∉ body) (hq : q.length ≤ s.cfg.maxLen)
    (hfit : s.buf.length + (body.length + 1) + (5 + q.length) ≤ s.cfg.cap) :
    exec (.feed (s.cfg.hdr :: body ++ frameBytes s.cfg d q)) s =
      .next ((s.setBuf []).deliver none (reportCorruption s.cfg reason ++ [.frame d q])) := by
  refine exec_feed_of_loopRun ?_ ((h _ _ _ (loopRun_frameBytes hw hbody hq)).discard hb)
  rw [List.length_append, List.length_cons, frameBytes_length]
  omega

/-- A change that spares the length byte leaves the fields of the frame where they were. -/
theorem exists_fields_of_set {i : Nat} (hi : i ≠ 1) :
    ∃ c' p' cs', (c :: L :: p ++ [cs]).set i x = c' :: L :: p' ++ [cs'] ∧ p'.length = p.length := by
  match i with
  | 0 => exact ⟨x, p, cs, rfl, rfl⟩
  | 1 => exact absurd rfl hi
  | i + 2 =>
    have hlen : ((p ++ [cs]).set i x).length = p.length + 1 := by
      rw [List.length_set, List.length_append, List.length_singleton]
    obtain hnil | ⟨p', cs', hset⟩ := List.eq_nil_or_concat ((p ++ [cs]).set i x)
    · rw [hnil] at hlen
      cases hlen
    · rw [hset, List.length_concat] at hlen
      refine ⟨c, p', cs', ?_, Nat.succ.inj hlen⟩
      rw [List.concat_eq_append] at hset
      exact congrArg (c :: L :: ·) hset

/-- 40_checksum.md R67: one changed byte other than the length is rejected by the checksum. -/
theorem rejectedAs_checksum_of_set {i : Nat} (hL : L.toNat ≤ cfg.maxLen) (hp : p.length = L.toNat)
    (hi : i < (c :: L :: p ++ [checksum c L p]).length) (hi1 : i ≠ 1)
    (hx : (c :: L :: p ++ [checksum c L p])[i]? ≠ some x) :
    RejectedAs cfg .checksum ((c :: L :: p ++ [checksum c L p]).set i x ++ [cfg.tl]) := by
  have hsum := sumBytes_set_mod_ne hi hx
  rw [sumBytes_append_checksum] at hsum
  obtain ⟨c', p', cs', hset, hp'⟩ := exists_fields_of_set (c := c) (L := L) (p := p) (cs := checksum c L p) (x := x) hi1
  rw [hset] at hsum ⊢
  exact rejectedAs_checksum hL (hp'.trans hp) fun hc => hsum (checksum_eq_iff.1 hc)

end Rejected

/-- Settles O43: the changed byte moves the sum away from 0, so the checksum rejects the frame. -/
theorem changedByteIsRejected : Obligations.ChangedByteIsRejected := by
  intro c d x p q i s hw hb hp hq L body hi hi1 hx hfit
  obtain ⟨hmax, -⟩ := Cfg.wf_iff.1 hw
  have hL : L.toNat = p.length := lengthByte_toNat (hp.trans hmax)
  have hrej : RejectedAs s.cfg .checksum (body.set i x ++ [s.cfg.tl]) :=
    rejectedAs_checksum_of_set (hL.trans_le hp) hL.symm hi hi1 hx
  have hlen : (body.set i x ++ [s.cfg.tl]).length = p.length + 4 := by
    rw [List.length_append, List.length_set, length_checkedBytes, List.length_singleton]
  have hroom : s.buf.length + ((body.set i x ++ [s.cfg.tl]).length + 1) + (5 + q.length) ≤ s.cfg.cap := by omega
  exact ⟨exec_feed_rejected hrej hb ((Nat.le_add_right _ _).trans hroom),
    fun hbody => exec_feed_rejected_frame hrej hw hb hbody hq hroom⟩

/-- Settles O44: the tail test comes before the checksum test, and rejects the frame. -/
theorem changedTailIsRejected : Obligations.ChangedTailIsRejected := by
  intro c d x p q s hw hb hp hq hx L body hfit
  obtain ⟨hmax, -⟩ := Cfg.wf_iff.1 hw
  have hL : L.toNat = p.length := lengthByte_toNat (hp.trans hmax)
  have hrej : RejectedAs s.cfg .tail (body ++ [x]) := rejectedAs_tail (hL.trans_le hp) hL.symm hx
  have hlen : (body ++ [x]).length = p.length + 4 := by
    rw [List.length_append, length_checkedBytes, List.length_singleton]
  have hroom : s.buf.length + ((body ++ [x]).length + 1) + (5 + q.length) ≤ s.cfg.cap := by omega
  exact ⟨exec_feed_rejected hrej hb ((Nat.le_add_right _ _).trans hroom),
    fun hbody => exec_feed_rejected_frame hrej hw hb hbody hq hroom⟩

/-! ## `DISCARD` (41_stream_decoder.md R81) -/

/-- Settles O23: each of the three events issues a `DISCARD` first; a creation opens a session, the ends leave none. -/
theorem discardEmptiesBuffer : Obligations.DiscardEmptiesBuffer := by
  refine ⟨fun s => ⟨rfl, exec_discard s⟩, fun live e es he => ?_⟩
  simp only [List.mem_cons, List.not_mem_nil, or_false] at he
  obtain rfl | rfl | rfl := he
  · exact ⟨false, by rw [readerOps]⟩
  · exact ⟨false, by rw [readerOps]⟩
  · exact ⟨true, by rw [readerOps]⟩

end Sys2Proof.Machine

/-! # Proofs of the family 42_frame_encoder: the frame or the error, the raw bytes, frames beyond `MAX_LEN` -/

namespace Sys2Proof.Machine

/-- 41_stream_decoder.md R75: the length test comes first, so a length byte beyond `MAX_LEN` rejects whatever stands
behind it. -/
theorem rejectedAs_length {cfg : Cfg} {c L : Byte} {body : List Byte} (hL : cfg.maxLen < L.toNat) :
    RejectedAs cfg .length (c :: L :: body) :=
  fun _ _ _ h => LoopRun.dDrop hL h

theorem exists_frameBytes_eq_header_cons (cfg : Cfg) (c : Byte) (p : List Byte) :
    ∃ rest, frameBytes cfg c p = cfg.hdr :: c :: lengthByte p :: rest :=
  ⟨_, rfl⟩

/-- Settles O19: the length byte of the encoder's frame is `len(p)`, beyond `MAX_LEN`, so the frame is rejected at
its length. -/
theorem frameBeyondMaxLenIsRejected : Obligations.FrameBeyondMaxLenIsRejected := by
  intro c p s hmax hp hb hfit
  obtain ⟨rest, hF⟩ := exists_frameBytes_eq_header_cons s.cfg c p
  have hrej : RejectedAs s.cfg .length (c :: lengthByte p :: rest) :=
    rejectedAs_length (hmax.trans_eq (lengthByte_toNat hp).symm)
  rw [← frameBytes_length s.cfg c p, hF] at hfit
  obtain ⟨t, tr, hfeed, hevents, hrun⟩ := exec_feed_rejected hrej hb hfit
  exact ⟨_, _, tr, t, exec_encode_frame s hp, hF ▸ hfeed, hF, hevents, hrun⟩

/-- Settles O15: the length byte holds `len(p)` up to 255, and the two branches of `ENCODE` deliver the frame or the
error and nothing else. -/
theorem encodeReturnsFrameOrError : Obligations.EncodeReturnsFrameOrError := by
  refine fun c p s => ⟨rfl, fun hp => ?frame, fun hp => exec_encode_tooLarge s hp⟩
  case frame => exact ⟨lengthByte p, lengthByte_toNat hp, exec_encode_frame s hp, frameBytes_length s.cfg c p⟩

/-- Settles O16: the output delivered is the error with an empty trace, which adds nothing to any event port. -/
theorem tooLargePayloadReachesNoTransport : Obligations.TooLargePayloadReachesNoTransport := by
  intro c p s hp
  refine ⟨_, exec_encode_tooLarge s hp, ?events, ?txPort, State.resultPort_deliver _ _ _⟩
  case events => rw [State.events_deliver, List.append_nil]
  case txPort => rw [State.txPort_deliver, List.filterMap_nil, List.append_nil]

/-- Settles O17: `ENCODE_RAW` delivers its bytes as its one event, with no test of their length. -/
theorem encodeRawReturnsItsBytes : Obligations.EncodeRawReturnsItsBytes :=
  fun r s => ⟨rfl, exec_encodeRaw r s⟩

end Sys2Proof.Machine

/-! # Proofs of the family 60_exceptions: which errors are reported and when, logging, the idle block -/

namespace Sys2Proof.Machine

/-! ## The errors of the loop and of `FEED` (60_exceptions.md R99) -/

section Errors

variable {cfg : Cfg} {b b' chunk : List Byte} {tr : List Event} {e : ErrorInfo}

theorem eq_frameCorruption_of_mem_reportCorruption {reason : Reason} (h : .err e ∈ reportCorruption cfg reason) :
    e = .frameCorruption reason := by
  unfold reportCorruption at h
  split at h
  · exact Event.err.inj (List.mem_singleton.1 h)
  · cases h

/-- The only labels of the loop that report an error are the three that drop a header. -/
theorem LoopRun.eq_frameCorruption_of_mem (h : LoopRun cfg b tr b') (he : .err e ∈ tr) :
    ∃ reason, e = .frameCorruption reason := by
  induction h with
  | aTrim | aStop | cStop | eStop => cases he
  | bDiscard _ _ _ ih => exact ih he
  | dDrop _ _ ih | gDrop _ _ _ _ ih | hDrop _ _ _ _ ih =>
    obtain he | he := List.mem_append.1 he
    · exact ⟨_, eq_frameCorruption_of_mem_reportCorruption he⟩
    · exact ih he
  | iEmit _ _ _ ih => exact ih (List.mem_of_ne_of_mem Event.noConfusion he)

theorem LoopRun.noOverflow (h : LoopRun cfg b tr b') : NoOverflow tr := by
  intro n hn
  obtain ⟨reason, hreason⟩ := h.eq_frameCorruption_of_mem hn
  cases hreason

theorem feedBuffer_err_cases (he : .err e ∈ (feedBuffer cfg b chunk).2) :
    (∃ reason, e = .frameCorruption reason) ∨ ∃ n, e = .bufferOverflow n := by
  obtain ⟨_, pre, tr, -, hrun, htr, hpre⟩ := feedBuffer_loopRun cfg b chunk
  rw [htr] at he
  obtain he | he := List.mem_append.1 he
  · obtain rfl | ⟨n, rfl⟩ := hpre
    · cases he
    · exact .inr ⟨n, Event.err.inj (List.mem_singleton.1 he)⟩
  · exact .inl (hrun.eq_frameCorruption_of_mem he)

end Errors

/-- Settles O28: only step 1 reports an overflow, since the loop that follows reports nothing but corruption. -/
theorem overflowIsReportedOnceAndFirst : Obligations.OverflowIsReportedOnceAndFirst := by
  intro chunk s
  refine ⟨_, _, exec_feed chunk s, State.events_deliver _ _ _, fun hfit => ?fits, fun hover => ?overflows⟩
  case fits => exact (feedBuffer_fits_loopRun hfit).noOverflow
  case overflows =>
    obtain ⟨tr, htr, hrun⟩ := feedBuffer_overflows_loopRun hover
    exact ⟨tr, htr, hrun.noOverflow⟩

/-- Settles O50: the errors of a `FEED` are those of step 1 and of the loop; the other operations put no error in
their traces, and of them only `ENCODE` returns one. -/
theorem errorsOfEachOperation : Obligations.ErrorsOfEachOperation := by
  intro i s
  cases i with
  | checksum c L p => exact ⟨_, _, _, exec_checksum c L p s, rfl, by simp, by simp⟩
  | encode c p =>
    by_cases hp : p.length ≤ 255
    · exact ⟨_, _, _, exec_encode_frame s hp, rfl, by simp, by simp⟩
    · refine ⟨_, _, _, exec_encode_tooLarge s (not_le.1 hp), rfl, by simp, fun e he => ⟨c, p, rfl, ?_⟩⟩
      exact (Result.error.inj (Option.some.inj he)).symm
  | encodeRaw r => exact ⟨_, _, _, exec_encodeRaw r s, rfl, by simp, by simp⟩
  | feed chunk =>
    exact ⟨_, _, _, exec_feed chunk s, rfl, fun e he => ⟨⟨chunk, rfl⟩, feedBuffer_err_cases he⟩, by simp⟩
  | discard => exact ⟨_, _, _, exec_discard s, rfl, by simp, by simp⟩

/-! ## Logging changes the report alone (60_exceptions.md R100) -/

/-- The configuration with `LOG_CORRUPTION` off. -/
def withoutLog (cfg : Cfg) : Cfg := { cfg with logCorruption := false }

/-- A trace less its `FrameCorruption` events. -/
def withoutCorruption (tr : List Event) : List Event := tr.filter fun e => !e.isCorruption

section Logging

variable {cfg : Cfg} {b b' : List Byte} {tr : List Event}

theorem withoutCorruption_reportCorruption_append (reason : Reason) (tr : List Event) :
    withoutCorruption (reportCorruption cfg reason ++ tr) = withoutCorruption tr := by
  unfold reportCorruption
  split <;> rfl

/-- The tests of the loop read no `LOG_CORRUPTION`: a run without it takes the same labels and loses its reports. -/
theorem LoopRun.withoutLog (h : LoopRun cfg b tr b') :
    LoopRun (withoutLog cfg) b (withoutCorruption tr) b' := by
  induction h with
  | aTrim hn hb => exact .aTrim hn hb
  | aStop hn hb => exact .aStop hn hb
  | bDiscard hg hne _ ih => exact .bDiscard hg hne ih
  | cStop hb => exact .cStop hb
  | dDrop hL _ ih => rw [withoutCorruption_reportCorruption_append]; exact .dDrop hL ih
  | eStop hL hb => exact .eStop hL hb
  | gDrop hL hp ht _ ih => rw [withoutCorruption_reportCorruption_append]; exact .gDrop hL hp ht ih
  | hDrop hL hp hc _ ih => rw [withoutCorruption_reportCorruption_append]; exact .hDrop hL hp hc ih
  | iEmit hL hp _ ih => exact .iEmit hL hp ih

theorem scanAll_withoutLog (cfg : Cfg) (b : Memory) :
    scanAll (withoutLog cfg) b = ((scanAll cfg b).1, withoutCorruption (scanAll cfg b).2) :=
  (loopRun_scanAll b).withoutLog.scanAll_eq

theorem feedBuffer_withoutLog (cfg : Cfg) (b chunk : List Byte) :
    feedBuffer (withoutLog cfg) b chunk =
      ((feedBuffer cfg b chunk).1, withoutCorruption (feedBuffer cfg b chunk).2) := by
  by_cases hfit : b.length + chunk.length ≤ cfg.cap
  · rw [feedBuffer_fits hfit, feedBuffer_fits (cfg := withoutLog cfg) hfit, scanAll_withoutLog]
  · have hover := not_le.1 hfit
    rw [feedBuffer_overflows hover, feedBuffer_overflows (cfg := withoutLog cfg) hover, scanAll_withoutLog]
    rfl

/-- A block without logging writes the same buffer and delivers the trace less its `FrameCorruption` events. -/
theorem exec_feed_withoutLog (chunk : List Byte) (s : State) :
    exec (.feed chunk) { s with cfg := withoutLog s.cfg } =
      .next ((State.setBuf { s with cfg := withoutLog s.cfg } (feedBuffer s.cfg s.buf chunk).1).deliver none
        (withoutCorruption (feedBuffer s.cfg s.buf chunk).2)) := by
  rw [exec_feed, feedBuffer_withoutLog]

end Logging

/-- Settles O30: step 1 reads no `LOG_CORRUPTION`, and the loop takes the same labels with it on and off. -/
theorem corruptionReportIsOptional : Obligations.CorruptionReportIsOptional := by
  intro chunk s
  have hoff := exec_feed_withoutLog chunk { s with cfg := { s.cfg with logCorruption := true } }
  exact ⟨_, _, exec_feed chunk _, hoff⟩

/-! ## Completion, the idle block, the codes (60_exceptions.md R99, R103, R115) -/

/-- Settles O8: no operation faults or refuses. -/
theorem everyOperationCompletes : Obligations.EveryOperationCompletes :=
  exec_total

/-- Settles O5: with nothing at the input, fetching answers `idle`. -/
theorem idleStepHoldsState : Obligations.IdleStepHoldsState := by
  intro s hc hp
  rw [step, State.fetch_idle hc hp]

/-- Settles O51: each code and each recorded information is the value of its arm in `code` and `info`. -/
theorem errorCodes : Obligations.ErrorCodes :=
  ⟨rfl, rfl, fun _ => ⟨rfl, rfl⟩, rfl, rfl, rfl, fun _ => ⟨rfl, rfl⟩, fun _ => ⟨rfl, rfl⟩⟩

end Sys2Proof.Machine

/-! # Proofs of the family 70_reset_and_hazards: whole writes, overflows, mismatched peers, sessions -/

namespace Sys2Proof.Machine

/-! ## Frames written whole (70_reset_and_hazards.md R121) -/

/-- Whole frames one after the other are emitted in their order: each is taken from the front of what is left. -/
theorem loopRun_frames {cfg : Cfg} {fs : List (Byte × List Byte)} (hw : cfg.wf = true)
    (hfs : ∀ f ∈ fs, f.2.length ≤ cfg.maxLen) :
    LoopRun cfg (fs.flatMap fun f => frameBytes cfg f.1 f.2) (fs.map fun f => .frame f.1 f.2) [] := by
  induction fs with
  | nil => exact .nil
  | cons f fs ih =>
    obtain ⟨hf, hfs⟩ := List.forall_mem_cons.1 hfs
    exact loopRun_frameBytes_append (g := []) hw List.not_mem_nil hf (ih hfs)

/-- Settles O39: the first frame is taken from behind the header-free buffer, and the others stand at the front, by
induction on the list of frames. -/
theorem wholeWritesGiveAllFrames : Obligations.WholeWritesGiveAllFrames := by
  intro fs s hw hb hfs hne hfit
  obtain ⟨f, fs, rfl⟩ := List.exists_cons_of_ne_nil hne
  obtain ⟨hf, hrest⟩ := List.forall_mem_cons.1 hfs
  exact exec_feed_of_loopRun hfit (loopRun_frameBytes_append hw hb hf (loopRun_frames hw hrest))

/-! ## Overflows (70_reset_and_hazards.md R117, R123) -/

/-- Settles O29: the loop runs on the bytes the overflow keeps and leaves a suffix of them; on no bytes it does
nothing. -/
theorem overflowKeepsOvfKeep : Obligations.OverflowKeepsOvfKeep := by
  intro chunk s hover
  obtain ⟨tr, htr, hrun⟩ := feedBuffer_overflows_loopRun hover
  refine ⟨_, exec_feed chunk s, hrun.framesStandIn.2.rest_suffix, fun hkeep => ?nothingKept⟩
  case nothingKept =>
    have hnone : (s.buf ++ chunk).drop (s.buf.length + chunk.length - s.cfg.ovfKeep) = [] :=
      List.drop_eq_nil_of_le (by rw [List.length_append]; omega)
    rw [hnone] at hrun
    obtain ⟨rfl, hbuf⟩ := loopHasOneOutcome _ _ _ _ _ _ hrun .nil
    exact ⟨hbuf, by rw [State.events_deliver, htr, State.events_setBuf]⟩

/-- Settles O36: a quiescent buffer leaves room for `CAP - RMAX` bytes, and where there is room nothing overflows. -/
theorem smallChunkNeverOverflows : Obligations.SmallChunkNeverOverflows := by
  intro chunk s hs hchunk
  have hbuf := State.inv_length_le_residualMax hs
  have hres := residualMax_le_cap (State.inv_iff.1 hs).1
  have hfit : s.buf.length + chunk.length ≤ s.cfg.cap := by omega
  exact ⟨_, _, exec_feed chunk s, State.events_deliver _ _ _, (feedBuffer_fits_loopRun hfit).noOverflow⟩

/-! ## Peers with other sentinels (70_reset_and_hazards.md R119) -/

/-- Settles O47: the buffer with the chunk behind it is header-free, so the loop trims it or stops at once. -/
theorem unheardPeerGivesNoFrame : Obligations.UnheardPeerGivesNoFrame := by
  intro chunk s hb hchunk hfit
  have hrun := LoopRun.noHeader (List.not_mem_append hb hchunk)
  rw [trim, lastn, List.length_append] at hrun
  exact exec_feed_of_loopRun hfit hrun

section Peers

variable {cfg peer : Cfg} {c c' : Byte} {g p p' rest rest' : List Byte} {fs : List (Byte × List Byte)}

/-- A frame the block accepts where a peer's frame starts has the peer's sentinels: the length byte tells where the tail
stands. -/
theorem sentinels_eq_of_startsWithFrame (hp : p.length ≤ 255)
    (h : StartsWithFrame cfg (frameBytes peer c p ++ rest) c' p' rest') :
    peer.hdr = cfg.hdr ∧ peer.tl = cfg.tl := by
  obtain ⟨L, hlen, -, hb⟩ := h
  obtain ⟨hhdr, -, hL, -, -, htl, -⟩ := candidate_offsets hlen.symm hb
  obtain ⟨hhdr', -, hL', -, -, htl', -⟩ := candidate_offsets rfl (frameBytes_cons peer c p rest)
  obtain rfl : lengthByte p = L := Option.some.inj (hL'.symm.trans hL)
  rw [lengthByte_toNat hp] at htl
  exact ⟨Option.some.inj (hhdr'.symm.trans hhdr), Option.some.inj (htl'.symm.trans htl)⟩

/-- 41_stream_decoder.md R78: behind the common header, a peer's frame with another tail is rejected at its tail. -/
theorem rejectedAs_tail_frameBytes (hp255 : p.length ≤ 255) (hp : p.length ≤ cfg.maxLen) (htl : peer.tl ≠ cfg.tl) :
    RejectedAs cfg .tail ((frameBytes peer c p).drop 1) := by
  have hL := lengthByte_toNat hp255
  have hbody : (frameBytes peer c p).drop 1 =
      c :: lengthByte p :: p ++ [checksum c (lengthByte p) p] ++ [peer.tl] := by
    simp [frameBytes]
  rw [hbody]
  exact rejectedAs_tail (hL.trans_le hp) hL.symm htl

theorem frameBytes_eq_hdr_cons_drop (cfg : Cfg) (c : Byte) (p : List Byte) :
    frameBytes cfg c p = cfg.hdr :: (frameBytes cfg c p).drop 1 := rfl

/-- Each frame is rejected at its tail, and its remaining bytes are one more header-free run before the next frame. -/
theorem exists_loopRun_peerFrames (hw : cfg.wf = true) (hhdr : peer.hdr = cfg.hdr) (htl : peer.tl ≠ cfg.tl)
    (hfs : ∀ f ∈ fs, f.2.length ≤ cfg.maxLen ∧ cfg.hdr ∉ (frameBytes peer f.1 f.2).drop 1) (hg : cfg.hdr ∉ g) :
    ∃ b', cfg.hdr ∉ b' ∧ LoopRun cfg (g ++ fs.flatMap fun f => frameBytes peer f.1 f.2)
      (fs.flatMap fun _ => reportCorruption cfg .tail) b' := by
  induction fs generalizing g with
  | nil =>
    rw [List.flatMap_nil, List.flatMap_nil, List.append_nil]
    have hrun := LoopRun.noHeader hg
    exact ⟨_, (hrun.of_headerFree hg).2, hrun⟩
  | cons f fs ih =>
    obtain ⟨⟨hp, hbody⟩, hfs⟩ := List.forall_mem_cons.1 hfs
    obtain ⟨b', hb', hrun⟩ := ih hfs hbody
    have hrej := rejectedAs_tail_frameBytes (c := f.1) (hp.trans (Cfg.wf_iff.1 hw).1) hp htl
    refine ⟨b', hb', ?_⟩
    rw [List.flatMap_cons, List.flatMap_cons, frameBytes_eq_hdr_cons_drop, hhdr]
    exact (hrej _ _ _ hrun).discard hg

end Peers

/-- Settles O58: a valid frame in a peer's bytes would show the peer's own sentinels, and frames with another tail are
rejected one by one, by induction on their list. -/
theorem mismatchedSentinelsGiveNoFrame : Obligations.MismatchedSentinelsGiveNoFrame := by
  refine ⟨fun cfg peer c c' p p' rest rest' hp hne h => ?notValid, fun peer fs s hw hhdr htl hb hfs hfit => ?reported⟩
  case notValid =>
    obtain ⟨hhdr, htl⟩ := sentinels_eq_of_startsWithFrame hp h
    exact hne.elim (· hhdr) (· htl)
  case reported =>
    obtain ⟨b', hb', hrun⟩ := exists_loopRun_peerFrames hw hhdr htl hfs hb
    exact ⟨b', hb', exec_feed_of_loopRun hfit hrun⟩

/-! ## The end of a session (70_reset_and_hazards.md R116, R122) -/

/-- Settles O52: `DISCARD` writes the buffer without reading it, so the operations behind it start from one state. -/
theorem discardForgetsTheSession : Obligations.DiscardForgetsTheSession := by
  intro ops b s
  rw [execAll_cons_of_exec (exec_discard _), execAll_cons_of_exec (exec_discard s)]
  rfl

/-- Each kind of end (log 17) issues `DISCARD` and leaves no session open. -/
theorem readerOps_ending {ending : LinkEvent}
    (h : ending ∈ [LinkEvent.endOfStream, .transportError, .disconnect, .cancel]) (live : Bool) (es : List LinkEvent) :
    readerOps live (ending :: es) = .discard :: readerOps false es := by
  simp only [List.mem_cons, List.not_mem_nil, or_false] at h
  obtain rfl | rfl | rfl | rfl := h <;> rw [readerOps]

/-- One event gives operations and tells whether a session is open after it, whatever comes later. -/
theorem exists_readerOps_cons (live : Bool) (e : LinkEvent) :
    ∃ ops live', ∀ es, readerOps live (e :: es) = ops ++ readerOps live' es := by
  cases e with
  | sessionCreated => exact ⟨[.discard], true, fun es => by rw [readerOps]; rfl⟩
  | chunk bytes =>
    cases live with
    | true => exact ⟨[.feed bytes], true, fun es => by rw [readerOps]; rfl⟩
    | false => exact ⟨[], false, fun es => by rw [readerOps]; rfl⟩
  | endOfStream | transportError | disconnect | cancel =>
    exact ⟨[.discard], false, readerOps_ending (by decide) live⟩

/-- The reader loop knows of the past only whether a session is open. -/
theorem exists_readerOps_append (live : Bool) (before : List LinkEvent) :
    ∃ live', ∀ es, readerOps live (before ++ es) = readerOps live before ++ readerOps live' es := by
  induction before generalizing live with
  | nil => exact ⟨live, fun es => by rw [readerOps]; rfl⟩
  | cons e before ih =>
    obtain ⟨ops, live₁, hcons⟩ := exists_readerOps_cons live e
    obtain ⟨live₂, happend⟩ := ih live₁
    exact ⟨live₂, fun es => by rw [List.cons_append, hcons, hcons, happend, List.append_assoc]⟩

/-- Without a session no chunk is fed. -/
theorem readerOps_false_chunks (late : List (List Byte)) (after : List LinkEvent) :
    readerOps false (late.map LinkEvent.chunk ++ after) = readerOps false after := by
  induction late with
  | nil => rfl
  | cons bytes late ih => rw [List.map_cons, List.cons_append, readerOps, ih]

/-- Settles O53: the end issues `DISCARD` and leaves no session open, and without one the late chunks give nothing. -/
theorem readerFeedsNothingAfterTheEnd : Obligations.ReaderFeedsNothingAfterTheEnd := by
  intro live before after ending late hending
  obtain ⟨live', happend⟩ := exists_readerOps_append live before
  rw [List.append_assoc, List.cons_append, happend, readerOps_ending hending, readerOps_false_chunks]

/-! ## The raw enable command (70_reset_and_hazards.md R118; log 13) -/

/-- What a run of operations does to the state: it leaves a buffer and delivers outputs. -/
def State.advance (s : State) (b : Memory) (outs : List Output) : State :=
  { s with buf := b, delivered := s.delivered ++ outs }

section Advance

variable (s : State) (b b' : Memory) (r : Option Result) (tr : List Event) (outs outs' : List Output)

@[simp] theorem State.advance_cfg : (s.advance b outs).cfg = s.cfg := rfl
@[simp] theorem State.advance_buf : (s.advance b outs).buf = b := rfl

theorem State.deliver_eq_advance : s.deliver r tr = s.advance s.buf [⟨r, tr⟩] := rfl

theorem State.advance_nil : s.advance s.buf [] = s := by
  rw [State.advance, List.append_nil]

@[simp] theorem State.advance_advance : (s.advance b outs).advance b' outs' = s.advance b' (outs ++ outs') := by
  simp [State.advance]

@[simp] theorem State.events_advance : (s.advance b outs).events = s.events ++ outs.flatMap Output.trace :=
  List.flatMap_append

@[simp] theorem State.framePort_advance :
    (s.advance b outs).framePort = s.framePort ++ (outs.flatMap Output.trace).filterMap Event.frame? := by
  simp [State.framePort]

@[simp] theorem State.errorPort_advance :
    (s.advance b outs).errorPort = s.errorPort ++ (outs.flatMap Output.trace).filterMap Event.err? := by
  simp [State.errorPort]

@[simp] theorem State.txPort_advance :
    (s.advance b outs).txPort = s.txPort ++ (outs.flatMap Output.trace).filterMap Event.tx? := by
  simp [State.txPort]

@[simp] theorem State.resultPort_advance :
    (s.advance b outs).resultPort = s.resultPort ++ outs.filterMap Output.result :=
  List.filterMap_append

end Advance

/-- What an operation leaves in the buffer and delivers depends on the configuration and the buffer alone. -/
theorem exec_of_cfg_buf (i : Instr) (cfg : Cfg) (b : Memory) :
    ∃ b' outs, ∀ s : State, s.cfg = cfg → s.buf = b → exec i s = .next (s.advance b' outs) := by
  cases hi : i.agent with
  | caller =>
    obtain ⟨r, txs, h⟩ := exec_caller_of_cfg hi cfg
    refine ⟨b, [⟨r, txs.map Event.tx⟩], ?_⟩
    rintro s hc rfl
    exact h s hc
  | readerLoop =>
    obtain ⟨b', tr, -, h⟩ := exec_readerLoop_of_buf hi cfg b
    exact ⟨b', _, h⟩

/-- What a run of operations leaves and delivers depends on no more than that either. -/
theorem execAll_of_cfg_buf (ops : List Instr) (cfg : Cfg) (b : Memory) :
    ∃ b' outs, ∀ s : State, s.cfg = cfg → s.buf = b → execAll ops s = .next (s.advance b' outs) := by
  induction ops generalizing b with
  | nil =>
    refine ⟨b, [], ?_⟩
    rintro s - rfl
    rw [State.advance_nil, execAll]
  | cons i is ih =>
    obtain ⟨b₁, outs₁, hfirst⟩ := exec_of_cfg_buf i cfg b
    obtain ⟨b₂, outs₂, hrest⟩ := ih b₁
    refine ⟨b₂, outs₁ ++ outs₂, fun s hc hb => ?_⟩
    rw [execAll_cons_of_exec (hfirst s hc hb), hrest (s.advance b₁ outs₁) hc rfl, State.advance_advance]

theorem execAll_total (ops : List Instr) (s : State) : ∃ t, execAll ops s = .next t := by
  obtain ⟨_, _, h⟩ := execAll_of_cfg_buf ops s.cfg s.buf
  exact ⟨_, h s rfl rfl⟩

theorem execAll_append_of_execAll {ops : List Instr} {s t : State} (h : execAll ops s = .next t) (ops' : List Instr) :
    execAll (ops ++ ops') s = execAll ops' t := by
  induction ops generalizing s with
  | nil => cases h; rfl
  | cons i is ih =>
    obtain ⟨u, hu⟩ := exec_total i s
    rw [execAll_cons_of_exec hu] at h
    rw [List.cons_append, execAll_cons_of_exec hu, ih h]

/-- A raw command within a run of operations leaves the same buffer and inserts its one output among the others. -/
theorem execAll_insert_encodeRaw (bytes : List Byte) (ops ops' : List Instr) (s : State) :
    ∃ b outs outs', execAll (ops ++ ops') s = .next (s.advance b (outs ++ outs')) ∧
      execAll (ops ++ .encodeRaw bytes :: ops') s = .next (s.advance b (outs ++ ⟨none, [.tx bytes]⟩ :: outs')) := by
  obtain ⟨b₁, outs, hops⟩ := execAll_of_cfg_buf ops s.cfg s.buf
  obtain ⟨b₂, outs', hops'⟩ := execAll_of_cfg_buf ops' s.cfg b₁
  refine ⟨b₂, outs, outs', ?without, ?inserted⟩ <;> rw [execAll_append_of_execAll (hops s rfl rfl)]
  case without => rw [hops' (s.advance b₁ outs) rfl rfl, State.advance_advance]
  case inserted =>
    rw [execAll_cons_of_exec (exec_encodeRaw bytes _), hops' ((s.advance b₁ outs).deliver none [.tx bytes]) rfl rfl]
    simp [State.deliver_eq_advance]

/-- An output with one `Tx` event inserted among others shows on the transmit port alone. -/
theorem State.ports_advance_insert_tx (s : State) (b : Memory) (bytes : List Byte) (outs outs' : List Output) :
    let t := s.advance b (outs ++ ⟨none, [.tx bytes]⟩ :: outs')
    let u := s.advance b (outs ++ outs')
    t.framePort = u.framePort ∧ t.errorPort = u.errorPort ∧ t.resultPort = u.resultPort ∧
      ∃ before behind, u.txPort = before ++ behind ∧ t.txPort = before ++ bytes :: behind := by
  refine ⟨?frames, ?errors, ?results, s.txPort ++ (outs.flatMap Output.trace).filterMap Event.tx?,
    (outs'.flatMap Output.trace).filterMap Event.tx?, ?without, ?inserted⟩
  case frames => simp [List.filterMap_cons, Event.frame?]
  case errors => simp [List.filterMap_cons, Event.err?]
  case results => simp
  case without => simp
  case inserted => simp [Event.tx?]

/-- Settles O54: after the `DISCARD` both runs start from one state, and the raw command inserts its one output. -/
theorem sessionIgnoresRawEnable : Obligations.SessionIgnoresRawEnable := by
  intro required ops s
  rw [sessionOps, execAll_cons_of_exec (exec_discard s)]
  cases required with
  | none =>
    obtain ⟨t, ht⟩ := execAll_total ops ((s.setBuf []).deliver none [])
    exact ⟨t, t, ht, ht, rfl, rfl, rfl, rfl, fun _ => rfl, nofun⟩
  | some k =>
    obtain ⟨b, outs, outs', hwithout, hinserted⟩ :=
      execAll_insert_encodeRaw frameEnable (ops.take k) (ops.drop k) ((s.setBuf []).deliver none [])
    rw [List.take_append_drop] at hwithout
    obtain ⟨hframes, herrors, hresults, htx⟩ := State.ports_advance_insert_tx _ b frameEnable outs outs'
    exact ⟨_, _, hinserted, hwithout, rfl, hframes, herrors, hresults, nofun, fun _ _ => htx⟩

end Sys2Proof.Machine
